-- ==== Sys2Proof/Word.lean ====
section
/-! DEFINITION. The word types of the block: a byte of the buffer memory and a 32-bit register or address (00_scope R6, R10). -/

namespace Sys2Proof

/-- A byte: an unsigned 8-bit value (00_scope R10). -/
abbrev Byte := BitVec 8

/-- A register value or a buffer-memory address: 32 bits, arithmetic modulo 2^32 (00_scope R6, R10). -/
abbrev Word := BitVec 32

end Sys2Proof
end

