-- ==== Sys2Proof/Config.lean ====
section
/-! DEFINITION. What the platform fixes (the OPEN parameters CODEC_BASE and Admitted, 00_scope R7 and R8, as plain data) and the free values (20_memory R48, 70_reset_and_hazards R141). -/

namespace Sys2Proof

/-- The addresses from `first` to `last`, both ends included (unsigned; empty if `last < first`). -/
structure Span where
  first : Word
  last : Word
  deriving DecidableEq, Repr

/-- The OPEN parameters of the model, as plain data that no step changes (10_state R38 "Everything else is a parameter").
Every function `Admitted : Addr → Bool` that is false on the register window is `admitted` (Machine/Operands.lean) of some `Platform`. -/
structure Platform where
  /-- CODEC_BASE: the bus address of the 32-byte register window (00_scope R7). -/
  codecBase : Word
  /-- The spans of buffer memory that the engine may read and write (00_scope R8). -/
  buffer : List Span
  deriving DecidableEq, Repr

/-- FREE VALUE, one byte per draw: what a racing read returns, and what each byte of a region holds after a race or after
a reset in the middle of an ENCODE or a DECODE (20_memory R48, 70_reset_and_hazards R141; log entries 8 and 10). It has no
body, so no proof can rest on a value of it. -/
opaque Config.freeByte : Nat → Byte

/-- FREE VALUE: whether a DECODE whose region an outside agent wrote during the command, and which still has a code byte to read,
hangs (20_memory R48 "may make a DECODE meet a zero code byte and `hang`"; log entries 8 and 21). -/
opaque Config.raceHangs : Nat → Bool

end Sys2Proof
end

