-- ==== Sys2Proof/Machine/Events.lean ====
section
/-! DEFINITION. What reaches the block from outside, as plain data: the host's bus transactions (30_encoding R66, R68), the accesses of outside agents (20_memory R48), the platform's reset (70_reset_and_hazards R138), and the order in which all of these and the engine's steps happen. -/

namespace Sys2Proof.Machine

/-- The width of a register access; only `word` reaches a register (10_state R18). -/
inductive Width where
  | byte
  | half
  | word
  deriving DecidableEq, Repr

/-- A bus transaction of the host, as 30_encoding R68 writes it: `(W, offset, data)`, `(R, offset)`, `(SB, address, byte)`,
`(LB, address)`. The width of a register access is kept so that the accesses 10_state R18 refuses can be written. -/
inductive Transaction where
  /-- `wr`: a write of `data` at `CODEC_BASE + offset`. -/
  | regWrite (width : Width) (offset : Word) (data : Word)
  /-- `rd`: a read at `CODEC_BASE + offset`. -/
  | regRead (width : Width) (offset : Word)
  /-- `sb`: the host's byte store to buffer memory. -/
  | storeByte (address : Word) (value : Byte)
  /-- `lb`: the host's byte load from buffer memory. -/
  | loadByte (address : Word)
  deriving DecidableEq, Repr

/-- A byte access to the buffer memory by an outside agent (20_memory R48). -/
inductive OutsideAccess where
  | read (address : Word)
  | write (address : Word) (value : Byte)
  deriving DecidableEq, Repr

/-- What happens next. A list of events says, as plain data, which agent moves when. -/
inductive Event where
  /-- The host's next bus transaction, run to its completion; a CMD write is one whole command (40_dispatch R73). -/
  | host (t : Transaction)
  /-- The host's CMD write of `w`, with the engine's steps taken one by one afterwards, so that an outside access or a
  reset can land while the engine is BUSY (10_state R30, 40_dispatch R69). -/
  | issue (w : Word)
  /-- The engine takes one step. -/
  | engine
  /-- An outside agent accesses the buffer memory. -/
  | outside (a : OutsideAccess)
  /-- The platform asserts reset. -/
  | reset
  deriving DecidableEq, Repr

end Sys2Proof.Machine
end

