-- ==== Sys2Proof/Syntax.lean ====
section
/-! DEFINITION. The commands of the block, one constructor per row of the opcode table (30_encoding R57). A command carries no operand: its operands are the registers ADDR, OFFSET and SIZE (30_encoding R64). -/

namespace Sys2Proof

/-- The three commands (00_scope R2, 30_encoding R57). An illegal command word is no command: `decodeCmd` refuses it by name and the dispatch raises IllegalCmd (60_exceptions R129). -/
inductive Instr where
  /-- ENCODE (41_encoder R81). -/
  | encode
  /-- DECODE (42_decoder R97). -/
  | decode
  /-- OVERHEAD (43_overhead_and_framing R113). -/
  | overhead
  deriving DecidableEq, Repr

end Sys2Proof
end

