-- ==== Sys2Proof/Machine/State.lean ====
section
/-! DEFINITION. The machine's state as plain data (10_state R38), the state after reset (10_state R35), and the reasons a step can stop. -/

namespace Sys2Proof.Machine

/-- Why a completed command failed: STATUS.CAUSE (60_exceptions R126). -/
inductive Cause where
  | sizeRange
  | illegalCmd
  deriving DecidableEq, Repr

/-- The operand values a command captures at its CMD write (40_dispatch R71, 10_state R32). -/
structure Operands where
  addr : Word
  offset : Word
  size : Word
  deriving DecidableEq, Repr

/-- The region of a command: `len` byte addresses from `base` upward, modulo 2^32 (20_memory R40). -/
structure Region where
  base : Word
  len : Nat
  deriving DecidableEq, Repr

/-- What outside agents have done to the region of the command in progress (20_memory R48). -/
inductive Race where
  /-- No outside access to the region. -/
  | none
  /-- Reads only. -/
  | read
  /-- At least one write. -/
  | write
  deriving DecidableEq, Repr

/-- Where ENCODE stands in the pseudocode of 41_encoder R86; `k` is the scan position, `next` the previous terminator. -/
inductive EncodePhase where
  /-- Before the synthetic 0x00 is written at the overhead position. -/
  | start
  /-- At the loop test: the command completes if `next = 0`, else `blk(k)` is read. -/
  | scan (k next : Nat)
  /-- `blk(k)` was read as 0x00; the marker is about to be written there. -/
  | mark (k next : Nat)
  deriving DecidableEq, Repr

/-- Where DECODE stands in the pseudocode of 42_decoder R101; `c` is the cursor. -/
inductive DecodePhase where
  /-- At the loop test: the command completes if the cursor has reached the end, else `blk(c)` is read. -/
  | read (c : Nat)
  /-- `blk(c)` was read as `v`; 0x00 is about to be written there. -/
  | clear (c : Nat) (v : Byte)
  deriving DecidableEq, Repr

/-- What a BUSY engine is doing, with its working values (10_state R32). -/
inductive Work where
  /-- A command that fails its legality or size check, before its `raise` (60_exceptions R127). -/
  | failing (cause : Cause)
  /-- OVERHEAD before its completion (43_overhead_and_framing R114). -/
  | overhead
  /-- A command whose region is not wholly admitted: no next step (20_memory R42). -/
  | stuck (i : Instr) (ops : Operands)
  /-- ENCODE past its checks. -/
  | encode (ops : Operands) (race : Race) (phase : EncodePhase)
  /-- DECODE past its checks. -/
  | decode (ops : Operands) (race : Race) (phase : DecodePhase)
  deriving DecidableEq, Repr

/-- The engine's state (10_state R30). -/
inductive Engine where
  | idle
  | busy (w : Work)
  /-- HUNG, in the DECODE with these operands (42_decoder R104). -/
  | hung (ops : Operands)
  deriving DecidableEq, Repr

/-- The buffer memory (20_memory R39): address and byte pairs, addresses strictly rising, no entry equal to what an unlisted
address reads as (`Memory.unlisted`, Machine/Ops.lean). -/
abbrev Memory := List Host.Cell

/-- The complete state (10_state R38). CMD and the reserved offsets hold nothing and have no field (10_state R19, R28). -/
structure State where
  /-- ADDR (10_state R20). -/
  addr : Word
  /-- OFFSET (10_state R21). -/
  offset : Word
  /-- SIZE (10_state R22). -/
  size : Word
  /-- RESULT (10_state R23). -/
  result : Word
  /-- STATUS (10_state R24). -/
  status : Word
  /-- The engine state and the per-command working state (10_state R30, R32). -/
  engine : Engine
  /-- The buffer memory (10_state R34, 20_memory R39). -/
  mem : Memory
  /-- The OPEN parameters, never written (00_scope R7, R8). -/
  platform : Platform
  /-- MODEL'S OWN: what reaches the block next, oldest first (log entry 3). -/
  events : List Event
  /-- MODEL'S OWN: what the host has got back from its reads, newest first (20_memory R55; log entry 15). -/
  hostReads : List Word
  /-- MODEL'S OWN: what outside agents have got back, newest first (20_memory R48; log entry 15). -/
  outsideReads : List Byte
  /-- MODEL'S OWN: how many free values have been drawn (log entry 8). -/
  draws : Nat
  deriving DecidableEq, Repr

/-- The machine right after reset (10_state R35), at the start of a run. The registers and the engine are as the spec says;
`platform` and `mem` are the OPEN parameters, at the values log entries 1 and 2 name (DESIGN CHOICE); the model's own fields are
empty (log entries 3, 8, 15). -/
def State.reset : State where
  addr := 0x00000000#32
  offset := 0x00000000#32
  size := 0x00000000#32
  result := 0x00000000#32
  status := 0x00000000#32
  engine := .idle
  mem := []
  platform := { codecBase := 0x40000000#32, buffer := [{ first := 0x00000000#32, last := 0xFFFFFFFF#32 }] }
  events := []
  hostReads := []
  outsideReads := []
  draws := 0

/-- The faults of the machine: none. The block has no trap (60_exceptions R132), all 2^32 byte addresses exist (20_memory
R39), and `stuck` and `hang` are states that only reset leaves (60_exceptions R134). Nobody raises a fault; this is safe. -/
inductive Fault where
  deriving DecidableEq, Repr

/-- The reasons the model gives a transaction no meaning. Each is safe: the machine stops, so nothing is proved of the run. -/
inductive Refusal where
  /-- Raised by the dispatch for a command with no meaning yet; no arm of `exec` raises it. Safe. -/
  | notModelled (mnemonic : String)
  /-- Raised for a host access that touches the register window other than by an aligned 32-bit access: a byte or halfword
  access, a misaligned one, one that straddles the window's edge, `sb` or `lb` in the window (10_state R18 "refused"). Safe. -/
  | windowAccess
  /-- Raised for a `wr` or `rd` transaction that does not touch the register window: it reaches no register, and a host's own
  wide access to memory depends on the host's byte order, outside the block (20_memory R44). Safe. -/
  | noRegisterThere
  /-- Raised for an outside agent's access to the register window: a second register master is outside the model
  (92_eei_decisions D27). Safe. -/
  | outsideWindowAccess
  deriving DecidableEq, Repr

end Sys2Proof.Machine
end

