-- ==== Sys2Proof/Machine/Flags.lean ====
section
/-! DEFINITION. The fields of STATUS and the words a completion writes there (10_state R24 to R27, 60_exceptions R126 and R127). -/

namespace Sys2Proof.Machine

/-- STATUS.DONE, bit 0 (10_state R24). -/
def statusDone (w : Word) : Bool := w.getLsbD 0

/-- STATUS.ERR, bit 1 (10_state R24). -/
def statusErr (w : Word) : Bool := w.getLsbD 1

/-- STATUS.CAUSE, bits 3..2 (10_state R24). -/
def statusCause (w : Word) : BitVec 2 := w.extractLsb' 2 2

/-- The code of a cause (60_exceptions R126). -/
def causeCode : Cause → BitVec 2
  | .sizeRange => 0b01#2
  | .illegalCmd => 0b10#2

/-- STATUS after a successful command: DONE = 1, ERR = 0, CAUSE = 0b00 (40_dispatch R72). -/
def statusSuccess : Word := 0x00000001#32

/-- STATUS after a failed command: DONE = 1, ERR = 1 and the cause's code in bits 3..2 (60_exceptions R127). -/
def statusError (c : Cause) : Word := 0x00000001#32 ||| 0x00000002#32 ||| ((causeCode c).setWidth 32 <<< 2)

end Sys2Proof.Machine
end

