-- ==== Sys2Proof/Machine/Operands.lean ====
section
/-! DEFINITION. A command's operands, its block positions and region, and the checks it makes before any memory access (00_scope R5, R8, R12; 20_memory R40, R42; 40_dispatch R71, R75). -/

namespace Sys2Proof.Machine

/-- The largest payload ENCODE accepts (00_scope R5). -/
abbrev maxPayload : Nat := 254

/-- The largest block DECODE accepts (00_scope R5). -/
abbrev maxBlock : Nat := 255

/-- The operands a command captures, once, at its CMD write (40_dispatch R71). -/
def capture (s : State) : Operands := { addr := s.addr, offset := s.offset, size := s.size }

/-- `blk(k)`: the address of position `k` of the block at `base` (00_scope R12). -/
def blk (base : Word) (k : Nat) : Word := base + BitVec.ofNat 32 k

/-- ENCODE's block start, the overhead byte's address: `ADDR + OFFSET - 1` (41_encoder R82). -/
def encodeBase (ops : Operands) : Word := ops.addr + ops.offset - 1#32

/-- DECODE's block start: `ADDR` (42_decoder R98). -/
def decodeBase (ops : Operands) : Word := ops.addr

/-- The region of ENCODE: `n + 1` bytes (20_memory R40). -/
def encodeRegion (ops : Operands) : Region := { base := encodeBase ops, len := ops.size.toNat + 1 }

/-- The region of DECODE: `s` bytes (20_memory R40). -/
def decodeRegion (ops : Operands) : Region := { base := decodeBase ops, len := ops.size.toNat }

/-- The region of each command; OVERHEAD has none (20_memory R40). -/
def commandRegion : Instr → Operands → Region
  | .encode, ops => encodeRegion ops
  | .decode, ops => decodeRegion ops
  | .overhead, _ => { base := 0#32, len := 0 }

/-- Is `a` one of the region's addresses? Since a region has fewer than 2^32 bytes, this is the distance from its base. -/
def Region.contains (r : Region) (a : Word) : Bool := (a - r.base).toNat < r.len

/-- Is `a` one of the 32 addresses of the register window (10_state R17)? -/
def inWindow (p : Platform) (a : Word) : Bool := (a - p.codecBase).toNat < 32

/-- `Admitted(a)` (00_scope R8): in the buffer memory the engine may use, and not in the register window (20_memory R54). -/
def admitted (p : Platform) (a : Word) : Bool :=
  p.buffer.any (fun sp => sp.first ≤ a && a ≤ sp.last) && !inWindow p a

/-- Every byte of the region is admitted (20_memory R42). -/
def regionAdmitted (p : Platform) (r : Region) : Bool :=
  (List.range r.len).all (fun k => admitted p (blk r.base k))

/-- The size check of each command, unsigned (41_encoder R83, 42_decoder R99); OVERHEAD has none (40_dispatch R75). -/
def sizeOk : Instr → Operands → Bool
  | .encode, ops => ops.size.toNat ≤ maxPayload
  | .decode, ops => 1 ≤ ops.size.toNat && ops.size.toNat ≤ maxBlock
  | .overhead, _ => true

/-- What the checks of a legal command find, in the order of 40_dispatch R75. -/
inductive Verdict where
  /-- The size check fails: SizeRange. -/
  | badSize
  /-- The size check passes and some byte of the region is not admitted: `stuck`. -/
  | inadmissible
  /-- The body runs. -/
  | run
  deriving DecidableEq, Repr

/-- The size check, then the admission check (40_dispatch R75). -/
def checkCommand (i : Instr) (ops : Operands) (p : Platform) : Verdict :=
  if sizeOk i ops then
    if regionAdmitted p (commandRegion i ops) then .run else .inadmissible
  else .badSize

end Sys2Proof.Machine
end

