-- ==== Sys2Proof/Machine/Ops.lean ====
section
/-! DEFINITION. The named operations over memory, registers and the engine: byte reads and writes, register reads and writes, a command's completion, its error, its sticking and its hang, the redrawing of a region's bytes, and reset. -/

namespace Sys2Proof.Machine

/-- What an address the memory does not list reads as (log entry 2, DESIGN CHOICE: the spec gives no initial contents, 00_scope R9). -/
def Memory.unlisted : Byte := 0x00#8

/-- `MemRead(a, 1)` (00_scope R12). -/
def Memory.read (m : Memory) (a : Word) : Byte :=
  match m with
  | [] => Memory.unlisted
  | (k, v) :: rest => if k = a.toNat then v else Memory.read rest a

/-- The memory without what it lists at `k`. -/
def Memory.erase (m : Memory) (k : Nat) : Memory :=
  match m with
  | [] => []
  | c :: rest => if c.1 = k then Memory.erase rest k else c :: Memory.erase rest k

/-- A cell put in its place by address. -/
def Memory.insertCell (m : Memory) (c : Host.Cell) : Memory :=
  match m with
  | [] => [c]
  | d :: rest => if c.1 < d.1 then c :: d :: rest else d :: Memory.insertCell rest c

/-- `MemWrite(a, 1, v)` (00_scope R12); a byte equal to what an unlisted address reads as is not listed. -/
def Memory.write (m : Memory) (a : Word) (v : Byte) : Memory :=
  if v = Memory.unlisted then m.erase a.toNat else (m.erase a.toNat).insertCell (a.toNat, v)

/-- The addresses from `lo` upward rise strictly, stay below 2^32, and no cell holds the unlisted byte. -/
def Memory.wfFrom (m : Memory) (lo : Nat) : Bool :=
  match m with
  | [] => true
  | c :: rest => lo ≤ c.1 && c.1 < 2 ^ 32 && c.2 != Memory.unlisted && Memory.wfFrom rest (c.1 + 1)

/-- The canonical form of a memory. -/
def Memory.wf (m : Memory) : Bool := m.wfFrom 0

/-- The registers of the window and its reserved offsets (10_state R17). -/
inductive Reg where
  | cmd
  | addr
  | offset
  | size
  | result
  | status
  | reserved18
  | reserved1C
  deriving DecidableEq, Repr

/-- The register's offset from CODEC_BASE (10_state R17). -/
def Reg.offsetOf : Reg → Word
  | .cmd => 0x00#32
  | .addr => 0x04#32
  | .offset => 0x08#32
  | .size => 0x0C#32
  | .result => 0x10#32
  | .status => 0x14#32
  | .reserved18 => 0x18#32
  | .reserved1C => 0x1C#32

/-- The number of bytes of an access. -/
def Width.bytes : Width → Nat
  | .byte => 1
  | .half => 2
  | .word => 4

/-- The register at a window offset, for an offset that is a multiple of 4 (10_state R17). -/
def regAt (offset : Word) : Option Reg :=
  match offset.toNat with
  | 0x00 => some .cmd
  | 0x04 => some .addr
  | 0x08 => some .offset
  | 0x0C => some .size
  | 0x10 => some .result
  | 0x14 => some .status
  | 0x18 => some .reserved18
  | 0x1C => some .reserved1C
  | _ => none

/-- Does an access of `width` at `CODEC_BASE + offset` touch the window, possibly across its edge (10_state R18)? -/
def touchesWindow (width : Width) (offset : Word) : Bool :=
  (List.range width.bytes).any (fun k => (offset + BitVec.ofNat 32 k).toNat < 32)

/-- The register an access reaches, or why it is refused (10_state R18). -/
def regOf (width : Width) (offset : Word) : Except Refusal Reg :=
  match width, regAt offset with
  | .word, some r => .ok r
  | _, _ => if touchesWindow width offset then .error .windowAccess else .error .noRegisterThere

/-- A register's value as the host reads it; CMD and the reserved offsets read 0 (10_state R19, R28). -/
def readReg (r : Reg) (s : State) : Word :=
  match r with
  | .cmd => 0x00000000#32
  | .addr => s.addr
  | .offset => s.offset
  | .size => s.size
  | .result => s.result
  | .status => s.status
  | .reserved18 => 0x00000000#32
  | .reserved1C => 0x00000000#32

/-- A host write to a register that starts no command: RESULT, STATUS and the reserved offsets ignore it (10_state R20 to R24,
R28). A write to CMD starts a command; that is `commandWrite` (Machine/Bus.lean), and CMD itself holds nothing (R19). -/
def writeReg (r : Reg) (v : Word) (s : State) : State :=
  match r with
  | .cmd => s
  | .addr => { s with addr := v }
  | .offset => { s with offset := v }
  | .size => { s with size := v }
  | .result => s
  | .status => s
  | .reserved18 => s
  | .reserved1C => s

/-- `Complete(result)`: RESULT and STATUS are replaced whole and the engine becomes IDLE (40_dispatch R72). -/
def complete (result : Byte) (s : State) : State :=
  { s with result := result.setWidth 32, status := statusSuccess, engine := .idle }

/-- `raise E`: the one shared operation for an error (60_exceptions R127). Nothing is saved and nothing is returned from
(60_exceptions R130, R132, R133). -/
def raiseError (c : Cause) (s : State) : State :=
  { s with result := 0x00000000#32, status := statusError c, engine := .idle }

/-- `stuck`: BUSY with no next step; RESULT, STATUS and memory are unchanged (20_memory R42). -/
def stick (i : Instr) (ops : Operands) (s : State) : State :=
  { s with engine := .busy (.stuck i ops) }

/-- `hang`: HUNG; RESULT and STATUS are unchanged (42_decoder R104). -/
def hang (ops : Operands) (s : State) : State :=
  { s with engine := .hung ops }

/-- Free bytes drawn into the `len` positions from `base`, the `k`-th from draw `d + k` (20_memory R48, 70_reset_and_hazards R141). -/
def drawBytes (base : Word) (d : Nat) : Nat → Memory → Memory
  | 0, m => m
  | k + 1, m => (drawBytes base d k m).write (blk base k) (Config.freeByte (d + k))

/-- Every byte of the region becomes any value: one free draw per byte. -/
def redrawRegion (r : Region) (s : State) : State :=
  { s with mem := drawBytes r.base s.draws r.len s.mem, draws := s.draws + r.len }

/-- The region of the command in progress, if it has one (20_memory R40). -/
def activeRegion : Engine → Option Region
  | .idle => none
  | .busy (.failing _) => none
  | .busy .overhead => none
  | .busy (.stuck i ops) => some (commandRegion i ops)
  | .busy (.encode ops _ _) => some (encodeRegion ops)
  | .busy (.decode ops _ _) => some (decodeRegion ops)
  | .hung ops => some (decodeRegion ops)

/-- What a reset does to the buffer memory: nothing (70_reset_and_hazards R139, R140), but for an ENCODE or DECODE that is
BUSY past its checks and not HUNG, whose region then holds any bytes (70_reset_and_hazards R141). -/
def resetMemory (s : State) : State :=
  match s.engine with
  | .idle => s
  | .hung _ => s
  | .busy (.failing _) => s
  | .busy .overhead => s
  | .busy (.stuck _ _) => s
  | .busy (.encode ops _ _) => redrawRegion (encodeRegion ops) s
  | .busy (.decode ops _ _) => redrawRegion (decodeRegion ops) s

/-- Reset: every register 0, the engine IDLE, the working state discarded (70_reset_and_hazards R138, 10_state R35). -/
def resetBlock (s : State) : State :=
  { resetMemory s with addr := 0#32, offset := 0#32, size := 0#32, result := 0#32, status := 0#32, engine := .idle }

end Sys2Proof.Machine
end

