-- ==== Sys2Proof/Machine/Decoder.lean ====
section
/-! DEFINITION. DECODE as one whole command (42_decoder R97 to R105). -/

namespace Sys2Proof.Machine

/-- How a chain walk ends: the cursor reached or passed the end, or it met a zero code byte (42_decoder R103, R104). -/
inductive Walk where
  | ended (m : Memory)
  | zeroCode (m : Memory)
  deriving DecidableEq, Repr

/-- The forward walk of 42_decoder R101 from cursor `c` over a block of `size` bytes. The first argument bounds the number of
jumps; each jump moves the cursor forward by at least 1, so `size - c` jumps are always enough. -/
def decodeWalk (base : Word) (size : Nat) : Nat → Nat → Memory → Walk
  | 0, _, m => .ended m
  | fuel + 1, c, m =>
    if c < size then
      let v := m.read (blk base c)
      let m' := m.write (blk base c) 0x00#8
      if v = 0x00#8 then .zeroCode m' else decodeWalk base size fuel (c + v.toNat) m'
    else .ended m

/-- DECODE's RESULT, `s - 1` (42_decoder R105). -/
def decodeResult (ops : Operands) : Byte := BitVec.ofNat 8 (ops.size.toNat - 1)

/-- The body of DECODE, run once its checks have passed (42_decoder R101): it completes or hangs. -/
def decodeBody (ops : Operands) (s : State) : State :=
  match decodeWalk (decodeBase ops) ops.size.toNat ops.size.toNat 0 s.mem with
  | .ended m => complete (decodeResult ops) { s with mem := m }
  | .zeroCode m => hang ops { s with mem := m }

/-- DECODE (42_decoder R97): the size check, the admission check, the body (40_dispatch R75). -/
def execDecode (s : State) : Host.Outcome State Fault Refusal :=
  match checkCommand .decode (capture s) s.platform with
  | .badSize => .next (raiseError .sizeRange s)
  | .inadmissible => .next (stick .decode (capture s) s)
  | .run => .next (decodeBody (capture s) s)

end Sys2Proof.Machine
end

