-- ==== Sys2Proof/Machine/Encoder.lean ====
section
/-! DEFINITION. ENCODE as one whole command (41_encoder R81 to R88). -/

namespace Sys2Proof.Machine

/-- A marker: the distance from position `k` to `next`, stored as its low 8 bits (41_encoder R85, 00_scope R10). -/
def marker (k next : Nat) : Byte := BitVec.ofNat 8 (next - k)

/-- The backward scan of 41_encoder R86 from position `k`, with the previously found terminator at `next`: every 0x00 found is
overwritten by its marker. At position 0 the byte read is the synthetic 0x00, so the scan always ends there. -/
def encodeScan (base : Word) : Nat → Nat → Memory → Memory
  | 0, next, m => m.write (blk base 0) (marker 0 next)
  | k + 1, next, m =>
    if m.read (blk base (k + 1)) = 0x00#8 then
      encodeScan base k (k + 1) (m.write (blk base (k + 1)) (marker (k + 1) next))
    else encodeScan base k next m

/-- ENCODE's effect on memory: the synthetic 0x00 at the overhead position, then the scan from the last payload byte with the
end position `n + 1` as the terminator (41_encoder R86). -/
def encodeMemory (base : Word) (n : Nat) (m : Memory) : Memory :=
  encodeScan base n (n + 1) (m.write (blk base 0) 0x00#8)

/-- ENCODE's RESULT, `n + 1` (41_encoder R88). -/
def encodeResult (ops : Operands) : Byte := BitVec.ofNat 8 (ops.size.toNat + 1)

/-- The body of ENCODE, run once its checks have passed (41_encoder R86). -/
def encodeBody (ops : Operands) (s : State) : State :=
  complete (encodeResult ops) { s with mem := encodeMemory (encodeBase ops) ops.size.toNat s.mem }

/-- ENCODE (41_encoder R81): the size check, the admission check, the body (40_dispatch R75). -/
def execEncode (s : State) : Host.Outcome State Fault Refusal :=
  match checkCommand .encode (capture s) s.platform with
  | .badSize => .next (raiseError .sizeRange s)
  | .inadmissible => .next (stick .encode (capture s) s)
  | .run => .next (encodeBody (capture s) s)

end Sys2Proof.Machine
end

