-- ==== Sys2Proof/Machine/Overhead.lean ====
section
/-! DEFINITION. OVERHEAD as one whole command (43_overhead_and_framing R113 to R115). -/

namespace Sys2Proof.Machine

/-- OVERHEAD's RESULT: the fixed one-byte overhead (43_overhead_and_framing R114). -/
def overheadResult : Byte := 1#8

/-- OVERHEAD: no check, no memory access (43_overhead_and_framing R114). -/
def execOverhead (s : State) : Host.Outcome State Fault Refusal :=
  .next (complete overheadResult s)

end Sys2Proof.Machine
end

