-- ==== Sys2Proof/Machine/Dispatch.lean ====
section
/-! DEFINITION. The dispatch: one arm per command (40_dispatch R70). -/

namespace Sys2Proof.Machine

/-- A whole, undisturbed command on the operand registers of `s` (40_dispatch R70, R73, R77). -/
def exec (i : Instr) (s : State) : Host.Outcome State Fault Refusal :=
  match i with
  | .encode => Sys2Proof.Machine.execEncode s
  | .decode => Sys2Proof.Machine.execDecode s
  | .overhead => Sys2Proof.Machine.execOverhead s

end Sys2Proof.Machine
end

