-- ==== Sys2Proof/Decode.lean ====
section
/-! DEFINITION. The decoder and the encoder of command words (30_encoding R56 to R65). -/

namespace Sys2Proof

/-- Why a command word selects no command (30_encoding R62). -/
inductive DecodeError where
  /-- RSV, bits 31..2, is not zero (30_encoding R58). -/
  | reservedBits
  /-- RSV is zero and OP is 0b00 (30_encoding R57). -/
  | reservedOp
  deriving DecidableEq, Repr

/-- OP, bits 1..0 of a command word (30_encoding R56). -/
def opField (w : Word) : BitVec 2 := w.extractLsb' 0 2

/-- RSV, bits 31..2 of a command word (30_encoding R56). -/
def rsvField (w : Word) : BitVec 30 := w.extractLsb' 2 30

/-- The decoder of command words, total (30_encoding R65), read off the fields of R56 to R58. -/
def decodeCmd (w : Word) : Except DecodeError Instr :=
  if rsvField w ≠ 0#30 then .error .reservedBits
  else if opField w = 0b01#2 then .ok .encode
  else if opField w = 0b10#2 then .ok .decode
  else if opField w = 0b11#2 then .ok .overhead
  else .error .reservedOp

/-- The command word of a command (30_encoding R59 to R61). -/
def encodeCmd : Instr → Word
  | .encode => 0x00000001#32
  | .decode => 0x00000002#32
  | .overhead => 0x00000003#32

/-- What the decoder reads from a command of `nbits` bits `w`, as spec/opcode_table.json numbers them. A command is one 32-bit
word written in one access (30_encoding R63); bits above `nbits` are 0, and no command is longer than 32 bits (log entry 18). -/
def decodeTableWord (nbits w : Nat) : Option Instr :=
  if nbits ≤ 32 then
    match decodeCmd (BitVec.ofNat 32 (w % 2 ^ nbits)) with
    | .ok i => some i
    | .error _ => none
  else none

end Sys2Proof
end

