-- ==== Sys2Proof/Machine/Engine.lean ====
section
/-! DEFINITION. The engine step by step: how a CMD write makes it BUSY (40_dispatch R69, R70), and one step of each command, a byte access or the completion (41_encoder R86, 42_decoder R101, 92_eei_decisions D26). -/

namespace Sys2Proof.Machine

/-- The work a CMD write of `w` starts: legality first, then size, then admission (40_dispatch R70, R75). -/
def workOf (w : Word) (ops : Operands) (p : Platform) : Work :=
  match decodeCmd w with
  | .error _ => .failing .illegalCmd
  | .ok i =>
    match checkCommand i ops p with
    | .badSize => .failing .sizeRange
    | .inadmissible => .stuck i ops
    | .run =>
      match i with
      | .encode => .encode ops .none .start
      | .decode => .decode ops .none (.read 0)
      | .overhead => .overhead

/-- A CMD write of `w` begins: the operands are captured and the engine goes to BUSY (40_dispatch R69, R71). -/
def beginCommand (w : Word) (s : State) : State :=
  { s with engine := .busy (workOf w (capture s) s.platform) }

/-- At the end of a command: if outside agents raced it, every byte of its region holds any value (20_memory R48). -/
def settleRace (race : Race) (r : Region) (s : State) : State :=
  match race with
  | .none => s
  | .read => redrawRegion r s
  | .write => redrawRegion r s

/-- One engine step of ENCODE (41_encoder R86). Once an outside agent has written in the region, the bytes the engine reads
there are any bytes, and RESULT is still the command's (20_memory R48): the command completes with a redrawn region. -/
def encodeStep (ops : Operands) (race : Race) (phase : EncodePhase) (s : State) : State :=
  let base := encodeBase ops
  let n := ops.size.toNat
  if race = .write then complete (encodeResult ops) (settleRace race (encodeRegion ops) s)
  else match phase with
    | .start =>
      { s with mem := s.mem.write (blk base 0) 0x00#8, engine := .busy (.encode ops race (.scan n (n + 1))) }
    | .scan k next =>
      if next = 0 then complete (encodeResult ops) (settleRace race (encodeRegion ops) s)
      else if s.mem.read (blk base k) = 0x00#8 then { s with engine := .busy (.encode ops race (.mark k next)) }
      else { s with engine := .busy (.encode ops race (.scan (k - 1) next)) }
    | .mark k next =>
      { s with mem := s.mem.write (blk base k) (marker k next), engine := .busy (.encode ops race (.scan (k - 1) k)) }

/-- Does a DECODE that stands at `phase` hang after a racing write? 20_memory R48 says only that such a write may make it meet a zero
code byte. It hangs if it has read its zero code byte already: it then never completes (42_decoder R104). It does not hang if
its cursor has reached the end, or does so with the jump already read: it then reads no further code byte (42_decoder R101).
Else the free value decides. That the phase decides these cases is the model's choice (log entry 21, DEDUCED). -/
def racedDecodeHangs (size : Nat) (phase : DecodePhase) (d : Nat) : Bool :=
  match phase with
  | .read c => decide (c < size) && Config.raceHangs d
  | .clear c v => v = 0x00#8 || (decide (c + v.toNat < size) && Config.raceHangs d)

/-- One engine step of DECODE (42_decoder R101). After a racing write the command hangs or completes with its own RESULT
(20_memory R48), as `racedDecodeHangs` says, with a redrawn region (log entries 8 and 21). -/
def decodeStep (ops : Operands) (race : Race) (phase : DecodePhase) (s : State) : State :=
  let base := decodeBase ops
  if race = .write then
    if racedDecodeHangs ops.size.toNat phase s.draws then hang ops (settleRace race (decodeRegion ops) s)
    else complete (decodeResult ops) (settleRace race (decodeRegion ops) s)
  else match phase with
    | .read c =>
      if c < ops.size.toNat then
        { s with engine := .busy (.decode ops race (.clear c (s.mem.read (blk base c)))) }
      else complete (decodeResult ops) (settleRace race (decodeRegion ops) s)
    | .clear c v =>
      if v = 0x00#8 then
        hang ops (settleRace race (decodeRegion ops) { s with mem := s.mem.write (blk base c) 0x00#8 })
      else
        { s with mem := s.mem.write (blk base c) 0x00#8, engine := .busy (.decode ops race (.read (c + v.toNat))) }

/-- One step of the engine. An IDLE engine has nothing to do, a `stuck` one has no next step (20_memory R42), and what a HUNG
one does changes nothing (42_decoder R104). -/
def engineStep (s : State) : State :=
  match s.engine with
  | .idle => s
  | .hung _ => s
  | .busy (.failing c) => raiseError c s
  | .busy .overhead => complete overheadResult s
  | .busy (.stuck _ _) => s
  | .busy (.encode ops race phase) => encodeStep ops race phase s
  | .busy (.decode ops race phase) => decodeStep ops race phase s

end Sys2Proof.Machine
end

