-- ==== Sys2Proof/Machine/Outside.lean ====
section
/-! DEFINITION. The accesses of outside agents to the buffer memory (20_memory R48). -/

namespace Sys2Proof.Machine

/-- The race after one more outside access to the region; a write outweighs reads. -/
def Race.after (r : Race) (a : OutsideAccess) : Race :=
  match r, a with
  | .write, _ => .write
  | _, .write _ _ => .write
  | _, .read _ => .read

/-- The address of an outside access. -/
def OutsideAccess.address : OutsideAccess → Word
  | .read a => a
  | .write a _ => a

/-- An outside access away from every region in use: an ordinary access to the one coherent memory (20_memory R49). -/
def plainAccess (a : OutsideAccess) (s : State) : State :=
  match a with
  | .read address => { s with outsideReads := s.mem.read address :: s.outsideReads }
  | .write address value => { s with mem := s.mem.write address value }

/-- What a racing access gives back: a read gets any byte (20_memory R48). -/
def racingReply (a : OutsideAccess) (s : State) : State :=
  match a with
  | .read _ => { s with outsideReads := Config.freeByte s.draws :: s.outsideReads, draws := s.draws + 1 }
  | .write _ _ => s

/-- A racing access marks the command in progress, whose region is redrawn at its end (20_memory R48); a `stuck` or HUNG
command has no end, so its region is redrawn at once (log entry 9). -/
def racingAccess (a : OutsideAccess) (s : State) : State :=
  match s.engine with
  | .busy (.encode ops race phase) => racingReply a { s with engine := .busy (.encode ops (race.after a) phase) }
  | .busy (.decode ops race phase) => racingReply a { s with engine := .busy (.decode ops (race.after a) phase) }
  | .busy (.stuck i ops) => redrawRegion (commandRegion i ops) (racingReply a s)
  | .hung ops => redrawRegion (decodeRegion ops) (racingReply a s)
  | .idle => s
  | .busy (.failing _) => s
  | .busy .overhead => s

/-- Does the access touch the region of the command in progress? -/
def races (a : OutsideAccess) (s : State) : Bool :=
  match activeRegion s.engine with
  | none => false
  | some r => r.contains a.address

/-- An outside agent's access: refused in the register window (92_eei_decisions D27), racing in the region of the command in
progress (20_memory R48), ordinary elsewhere. -/
def outsideAccess (a : OutsideAccess) (s : State) : Host.Outcome State Fault Refusal :=
  if inWindow s.platform a.address then .refused .outsideWindowAccess
  else if races a s then .next (racingAccess a s)
  else .next (plainAccess a s)

end Sys2Proof.Machine
end

