-- ==== Sys2Proof/Machine/Bus.lean ====
section
/-! DEFINITION. The host's bus transactions while the engine is IDLE (20_memory R55), and what each event does. -/

namespace Sys2Proof.Machine

/-- A host write of `w` to CMD, run to its completion: the command it selects, or IllegalCmd (40_dispatch R70, R73). -/
def commandWrite (w : Word) (s : State) : Host.Outcome State Fault Refusal :=
  match decodeCmd w with
  | .ok i => exec i s
  | .error _ => .next (raiseError .illegalCmd s)

/-- A host register write: CMD starts a command, every other offset is `writeReg` (10_state R17 to R28). -/
def hostRegWrite (width : Width) (offset data : Word) (s : State) : Host.Outcome State Fault Refusal :=
  match regOf width offset with
  | .error e => .refused e
  | .ok .cmd => commandWrite data s
  | .ok r => .next (writeReg r data s)

/-- A host register read: the host gets the value back, and nothing else changes (10_state R37). -/
def hostRegRead (width : Width) (offset : Word) (s : State) : Host.Outcome State Fault Refusal :=
  match regOf width offset with
  | .error e => .refused e
  | .ok r => .next { s with hostReads := readReg r s :: s.hostReads }

/-- A host byte store to buffer memory; in the window it is a byte access and refused (10_state R18, 20_memory R54). -/
def hostStore (address : Word) (value : Byte) (s : State) : Host.Outcome State Fault Refusal :=
  if inWindow s.platform address then .refused .windowAccess
  else .next { s with mem := s.mem.write address value }

/-- A host byte load from buffer memory; in the window it is a byte access and refused (10_state R18, 20_memory R54). -/
def hostLoad (address : Word) (s : State) : Host.Outcome State Fault Refusal :=
  if inWindow s.platform address then .refused .windowAccess
  else .next { s with hostReads := (s.mem.read address).setWidth 32 :: s.hostReads }

/-- A host transaction (30_encoding R66). -/
def hostTransaction (t : Transaction) (s : State) : Host.Outcome State Fault Refusal :=
  match t with
  | .regWrite width offset data => hostRegWrite width offset data s
  | .regRead width offset => hostRegRead width offset s
  | .storeByte address value => hostStore address value s
  | .loadByte address => hostLoad address s

/-- One event, in a state whose other events are `rest`. While the engine is BUSY or HUNG the host's CMD write has not
completed: its next transaction waits where it is and the engine moves instead (40_dispatch R69, R73; log entry 5). -/
def performEvent (e : Event) (rest : List Event) (s : State) : Host.Outcome State Fault Refusal :=
  match e with
  | .host t => if s.engine = .idle then hostTransaction t { s with events := rest } else .next (engineStep s)
  | .issue w => if s.engine = .idle then .next (beginCommand w { s with events := rest }) else .next (engineStep s)
  | .engine => .next (engineStep { s with events := rest })
  | .outside a => outsideAccess a { s with events := rest }
  | .reset => .next (resetBlock { s with events := rest })

end Sys2Proof.Machine
end

