-- ==== Sys2Proof/Machine/Step.lean ====
section
/-! DEFINITION. One step of the machine, and where the next command word stands. -/

namespace Sys2Proof.Machine

/-- One step: the next event, or, when nothing comes from outside, a step of the engine (70_reset_and_hazards R152). -/
def step (s : State) : Host.Outcome State Fault Refusal :=
  match s.events with
  | [] => .next (engineStep s)
  | e :: rest => performEvent e rest s

/-- `s` with the host's next transaction a CMD write of the command word `w`, and the engine IDLE, so that the next step runs
it. A command word is a 32-bit bus word, not bytes in memory; bits above `nbits` are 0 (30_encoding R56, R63, R68; log entry 18). -/
def State.withFetchWord (s : State) (nbits w : Nat) : State :=
  { s with
    engine := .idle
    events := .host (.regWrite .word 0x00#32 (BitVec.ofNat 32 (w % 2 ^ nbits))) :: s.events }

end Sys2Proof.Machine
end

