-- ==== Sys2Proof/Safety.lean ====
section
/-! DEFINITION. The terms claims are stated in: the encoded block and the decoding chain as the spec declares them (41_encoder R85, 42_decoder R102), what a command leaves untouched (20_memory R46), the machine's invariant, and the end of a run (70_reset_and_hazards R151). -/

namespace Sys2Proof.Machine

/-- `k` is a marker position, the set `Z` of 41_encoder R85: position 0, or a payload position holding 0x00. -/
def IsMarker (m : Memory) (base : Word) (n k : Nat) : Prop :=
  k = 0 ∨ (1 ≤ k ∧ k ≤ n ∧ m.read (blk base k) = 0x00#8)

/-- `z` is `succ(k)` of 41_encoder R85: the next marker position after `k`, or the end position `n + 1` if there is none. -/
def IsSucc (m : Memory) (base : Word) (n k z : Nat) : Prop :=
  k < z ∧ (z = n + 1 ∨ IsMarker m base n z) ∧ z ≤ n + 1 ∧ ∀ j, k < j → j < z → ¬ IsMarker m base n j

/-- `m'` holds the encoded block of the `n` payload bytes that `m` holds (41_encoder R85): a marker position holds its distance to
the next one, any other position holds its payload byte. -/
def EncodedBlock (m m' : Memory) (base : Word) (n : Nat) : Prop :=
  ∀ k, k ≤ n →
    (IsMarker m base n k → ∃ z, IsSucc m base n k z ∧ (m'.read (blk base k)).toNat = z - k) ∧
    (¬ IsMarker m base n k → m'.read (blk base k) = m.read (blk base k))

/-- `c` is a position of the decoding chain (42_decoder R102): `c_0 = 0` and `c_{j+1} = c_j + M[blk(c_j)]`, while below `size`. -/
inductive OnChain (m : Memory) (base : Word) (size : Nat) : Nat → Prop where
  | start : 0 < size → OnChain m base size 0
  | jump {c : Nat} : OnChain m base size c → c + (m.read (blk base c)).toNat < size →
      OnChain m base size (c + (m.read (blk base c)).toNat)

/-- The chain visits no 0x00 (42_decoder R102, R109). -/
def ChainClear (m : Memory) (base : Word) (size : Nat) : Prop :=
  ∀ c, OnChain m base size c → m.read (blk base c) ≠ 0x00#8

/-- `m'` holds 0x00 at every chain position of `m` and is as `m` at every other position of the block (42_decoder R102, R104). -/
def DecodedBlock (m m' : Memory) (base : Word) (size : Nat) : Prop :=
  ∀ k, k < size →
    (OnChain m base size k → m'.read (blk base k) = 0x00#8) ∧
    (¬ OnChain m base size k → m'.read (blk base k) = m.read (blk base k))

/-- Every byte outside the `len` positions from `base` reads in `m'` as in `m` (20_memory R46). -/
def UntouchedOutside (m m' : Memory) (base : Word) (len : Nat) : Prop :=
  ∀ a, (∀ k, k < len → a ≠ blk base k) → m'.read a = m.read a

/-- Every byte of the `len` positions from `base` is admitted (20_memory R41). -/
def AllAdmitted (p : Platform) (base : Word) (len : Nat) : Prop :=
  ∀ k, k < len → admitted p (blk base k) = true

/-- The STATUS words that occur (10_state R24). -/
def StatusLegal (w : Word) : Prop :=
  w = 0x00000000#32 ∨ w = 0x00000001#32 ∨ w = 0x00000007#32 ∨ w = 0x0000000B#32

/-- The bounds on ENCODE's working values `k` and `next` (41_encoder R86): `k ≤ n`, `next ≤ n + 1`, and `k` stands before `next`
until the scan is over. -/
def EncodePhase.Ok (n : Nat) : EncodePhase → Prop
  | .start => True
  | .scan k next => k ≤ n ∧ next ≤ n + 1 ∧ (next ≠ 0 → k < next)
  | .mark k next => k ≤ n ∧ next ≤ n + 1 ∧ k < next

/-- The bounds on DECODE's cursor (42_decoder R101): at most 509 at the loop test, inside the block at a write. -/
def DecodePhase.Ok (size : Nat) : DecodePhase → Prop
  | .read c => c ≤ 509
  | .clear c _ => c < size

/-- The working state of a command agrees with the checks it has passed or failed (40_dispatch R75). -/
def Work.Ok (p : Platform) : Work → Prop
  | .failing _ => True
  | .overhead => True
  | .stuck i ops => checkCommand i ops p = .inadmissible
  | .encode ops _ phase => checkCommand .encode ops p = .run ∧ phase.Ok ops.size.toNat
  | .decode ops _ phase => checkCommand .decode ops p = .run ∧ phase.Ok ops.size.toNat

/-- The engine's working state is one the checks and the pseudocode allow (10_state R30, R32). -/
def Engine.Ok (p : Platform) : Engine → Prop
  | .idle => True
  | .busy w => w.Ok p
  | .hung ops => checkCommand .decode ops p = .run

/-- The machine's invariant: memory in canonical form, a STATUS word that occurs (10_state R24), RESULT[31:8] = 0 and RESULT 0
unless the last command succeeded (10_state R23), and a working state the pseudocode allows (10_state R32). -/
structure State.Inv (s : State) : Prop where
  memWf : s.mem.wf = true
  statusLegal : StatusLegal s.status
  resultByte : s.result.toNat ≤ 255
  resultZero : s.status ≠ 0x00000001#32 → s.result = 0
  engineOk : s.engine.Ok s.platform

/-- A run has ended (70_reset_and_hazards R151): the host has no transaction left and the engine is IDLE. R151 asks that the host's last
transaction has completed and does not name the case in which a reset abandoned it (R140); that this state counts as final when no
transaction is left is the model's choice (log entry 20, DESIGN CHOICE). -/
def State.Final (s : State) : Prop :=
  s.engine = .idle ∧ ∀ e, e ∈ s.events → (∀ t, e ≠ .host t) ∧ ∀ w, e ≠ .issue w

/-- The host's CMD write will never complete (70_reset_and_hazards R151): the command is stuck, or the engine is HUNG. -/
def State.NeverCompletes (s : State) : Prop :=
  (∃ i ops, s.engine = .busy (.stuck i ops)) ∨ ∃ ops, s.engine = .hung ops

end Sys2Proof.Machine
end

