-- ==== Sys2Proof/Certificates/Slice0/Obligations.lean ====
section
/-! DEFINITION. The statements for the provers, in the spec's order: command words, dispatch, ENCODE, DECODE, OVERHEAD, errors, registers, host and outside accesses, reset, the engine step by step, and the invariant of the whole machine. -/

open Sys2Proof Sys2Proof.Machine

/-! ### Command words -/

/-- 30_encoding R59 to R61, on the three words written out bit by bit from the rules' patterns. -/
def Obligations.WrittenOutWordsDecodeToTheirCommands : Prop :=
  decodeCmd 0b00000000000000000000000000000001#32 = .ok .encode ∧
  decodeCmd 0b00000000000000000000000000000010#32 = .ok .decode ∧
  decodeCmd 0b00000000000000000000000000000011#32 = .ok .overhead

/-- 30_encoding R59, R60, R61: each command is exactly one word. -/
def Obligations.EachCommandIsExactlyOneWord : Prop :=
  ∀ w : Word,
    (decodeCmd w = .ok .encode ↔ w = 0x00000001#32) ∧
    (decodeCmd w = .ok .decode ↔ w = 0x00000002#32) ∧
    (decodeCmd w = .ok .overhead ↔ w = 0x00000003#32)

/-- The encoder and the decoder agree on every command: decoding an encoded command gives it back, and a word decodes to a command
only if it is that command's encoding (30_encoding section 2). -/
def Obligations.EncodeAndDecodeAgree : Prop :=
  ∀ (w : Word) (i : Instr), decodeCmd w = .ok i ↔ w = encodeCmd i

/-! ### Dispatch -/

/-- A step runs the decoded command: with the engine IDLE and a CMD write of `w` next, the step is `exec` of the command `w` decodes
to, with the transaction taken off the list (40_dispatch R69, R70). -/
def Obligations.StepRunsTheDecodedCommand : Prop :=
  ∀ (s : State) (w : Word) (rest : List Event) (i : Instr),
    s.engine = .idle → s.events = .host (.regWrite .word 0x00#32 w) :: rest → decodeCmd w = .ok i →
    step s = exec i { s with events := rest }

/-- The command word that the opcode table gives is what the next step runs. This is the model's form, not a rule of the spec:
`withFetchWord` places the word as the next CMD write (log entry 3, DESIGN CHOICE), a CMD write is one step of the whole command
(log entry 4, DEDUCED), and `decodeTableWord` reads the table's bits as one 32-bit bus word (log entry 18, DEDUCED). -/
def Obligations.FetchWordRunsTheTableCommand : Prop :=
  ∀ (s : State) (nbits w : Nat) (i : Instr),
    decodeTableWord nbits w = some i → step (s.withFetchWord nbits w) = exec i { s with engine := .idle }

/-- 30_encoding R62, 60_exceptions R129: a word is illegal exactly when its bits 31..2 are not 0 or its bits 1..0 are 0, which is every
word but 1, 2 and 3; a CMD write of it completes at once with RESULT 0 and STATUS 0x0000000B, whatever the operand registers
hold, and changes nothing else. -/
def Obligations.IllegalWordCompletesAsIllegalCmd : Prop :=
  ∀ (s : State) (w : Word) (rest : List Event),
    s.engine = .idle → s.events = .host (.regWrite .word 0x00#32 w) :: rest →
    ((w.extractLsb' 2 30 ≠ 0#30 ∨ w.extractLsb' 0 2 = 0b00#2) ↔ w ≠ 0x00000001#32 ∧ w ≠ 0x00000002#32 ∧ w ≠ 0x00000003#32) ∧
    ((w.extractLsb' 2 30 ≠ 0#30 ∨ w.extractLsb' 0 2 = 0b00#2) →
      step s = .next { s with events := rest, result := 0x00000000#32, status := 0x0000000B#32 })

/-- 60_exceptions R126: which CMD write fails, with which STATUS and RESULT, that no other does, and what one that succeeds leaves; legality before size, and size
before admission (no hypothesis on admission stands in the failing clauses, 60_exceptions R131); the reserved cause 0b11 is never
produced. -/
def Obligations.CausesOfFailureAndTheirPriority : Prop :=
  ∀ (s : State) (w : Word) (rest : List Event),
    s.engine = .idle → s.events = .host (.regWrite .word 0x00#32 w) :: rest →
    ((w.extractLsb' 2 30 ≠ 0#30 ∨ w.extractLsb' 0 2 = 0b00#2) →
      step s = .next { s with events := rest, result := 0x00000000#32, status := 0x0000000B#32 }) ∧
    (w = 0x00000001#32 → 254 < s.size.toNat →
      step s = .next { s with events := rest, result := 0x00000000#32, status := 0x00000007#32 }) ∧
    (w = 0x00000002#32 → (s.size.toNat < 1 ∨ 255 < s.size.toNat) →
      step s = .next { s with events := rest, result := 0x00000000#32, status := 0x00000007#32 }) ∧
    (∀ t, step s = .next t → t.engine = .idle →
      (t.status = 0x00000001#32 ∨ t.status = 0x00000007#32 ∨ t.status = 0x0000000B#32) ∧
      (t.status = 0x00000007#32 ↔
        (w = 0x00000001#32 ∧ 254 < s.size.toNat) ∨ (w = 0x00000002#32 ∧ (s.size.toNat < 1 ∨ 255 < s.size.toNat))) ∧
      (t.status = 0x0000000B#32 ↔ w.extractLsb' 2 30 ≠ 0#30 ∨ w.extractLsb' 0 2 = 0b00#2) ∧
      (t.status = 0x00000001#32 →
        (w = 0x00000001#32 → t.result = s.size + 1#32) ∧ (w = 0x00000002#32 → t.result = s.size - 1#32) ∧
        (w = 0x00000003#32 → t.result = 0x00000001#32)) ∧
      statusCause t.status ≠ 0b11#2 ∧ (statusErr t.status = false ↔ t.status = 0x00000001#32))

/-- Every command answers a next state, from every state: none stops, faults or is refused (40_dispatch R70 "each body ends in
Complete, raise, stuck or hang", all of them next states; log entries 6 and 7). -/
def Obligations.EveryCommandAnswersANextState : Prop :=
  ∀ (i : Instr) (s : State), ∃ t, exec i s = .next t ∧ t.events = s.events

/-- 40_dispatch R77: two states with the same operands and the same region contents (and the same parameters) have the same outcome of
a command: both complete or fail alike, stick alike or hang alike, with the same RESULT and STATUS if they end, and the same final
region contents; nothing depends on the previous RESULT, STATUS or command, nor on memory outside the region. -/
def Obligations.OutcomeDependsOnOperandsAndRegionOnly : Prop :=
  ∀ (i : Instr) (s s' : State),
    capture s = capture s' → s.platform = s'.platform →
    (∀ k, k < (commandRegion i (capture s)).len →
      s.mem.read (blk (commandRegion i (capture s)).base k) = s'.mem.read (blk (commandRegion i (capture s)).base k)) →
    ∃ t t', exec i s = .next t ∧ exec i s' = .next t' ∧ t.engine = t'.engine ∧
      (t.engine = .idle → t.result = t'.result ∧ t.status = t'.status) ∧
      ∀ k, k < (commandRegion i (capture s)).len →
        t.mem.read (blk (commandRegion i (capture s)).base k) = t'.mem.read (blk (commandRegion i (capture s)).base k)

/-! ### ENCODE -/

/-- 41_encoder R85: ENCODE of a payload of `n = SIZE ≤ 254` bytes whose region is admitted completes, and afterwards every marker
position holds the distance to the next one or to the end position `n + 1`, every other position its payload byte, and every
address outside the region what it held. -/
def Obligations.EncodeWritesTheEncodedBlock : Prop :=
  ∀ s : State,
    s.size.toNat ≤ 254 → AllAdmitted s.platform (s.addr + s.offset - 1#32) (s.size.toNat + 1) →
    ∃ t, exec .encode s = .next t ∧ t.engine = .idle ∧
      EncodedBlock s.mem t.mem (s.addr + s.offset - 1#32) s.size.toNat ∧
      UntouchedOutside s.mem t.mem (s.addr + s.offset - 1#32) (s.size.toNat + 1)

/-- 41_encoder R88: on completion RESULT = n + 1 and STATUS = 0x00000001; on failure RESULT = 0 and STATUS = 0x00000007; nothing else
but memory is written. -/
def Obligations.EncodeResultAndStatus : Prop :=
  ∀ s : State,
    (s.size.toNat ≤ 254 → AllAdmitted s.platform (s.addr + s.offset - 1#32) (s.size.toNat + 1) →
      ∃ m, exec .encode s =
        .next { s with mem := m, result := s.size + 1#32, status := 0x00000001#32, engine := .idle }) ∧
    (254 < s.size.toNat →
      exec .encode s = .next { s with result := 0x00000000#32, status := 0x00000007#32, engine := .idle })

/-- 41_encoder R83: ENCODE fails its size check exactly when `n > 254`, unsigned, and then accesses no memory; every `n` from 0 to 254
passes. -/
def Obligations.EncodeSizeCheck : Prop :=
  ∀ s : State,
    (checkCommand .encode (capture s) s.platform = .badSize ↔ 254 < s.size.toNat) ∧
    (254 < s.size.toNat →
      exec .encode s = .next { s with result := 0x00000000#32, status := 0x00000007#32, engine := .idle })

/-- 41_encoder R84 and 20_memory R42: if some byte of the region `blk(0..n)` is not admitted, ENCODE is stuck: RESULT, STATUS and memory
are unchanged. That a stuck command is a NEXT state, BUSY (10_state R30), whose engine step changes nothing where R42 says that the
engine has no next step, is the model's reading (log entry 6, DEDUCED). -/
def Obligations.EncodeOfAnInadmissibleRegionIsStuck : Prop :=
  ∀ s : State,
    s.size.toNat ≤ 254 → ¬ AllAdmitted s.platform (s.addr + s.offset - 1#32) (s.size.toNat + 1) →
    exec .encode s = .next { s with engine := .busy (.stuck .encode (capture s)) } ∧
    engineStep { s with engine := .busy (.stuck .encode (capture s)) } = { s with engine := .busy (.stuck .encode (capture s)) }

/-- The frame of ENCODE: every register but RESULT and STATUS, the parameters, the model's own fields and every byte outside the region
`blk(0..n)` are unchanged; no position of the region but a marker position is changed either (41_encoder R87); if the size check
or the admission check fails, all of memory is unchanged (20_memory R46). -/
def Obligations.EncodeFrame : Prop :=
  ∀ s t : State, exec .encode s = .next t →
    t.addr = s.addr ∧ t.offset = s.offset ∧ t.size = s.size ∧ t.platform = s.platform ∧ t.events = s.events ∧
    t.hostReads = s.hostReads ∧ t.outsideReads = s.outsideReads ∧ t.draws = s.draws ∧
    UntouchedOutside s.mem t.mem (s.addr + s.offset - 1#32) (s.size.toNat + 1) ∧
    (∀ k, k ≤ s.size.toNat → ¬ IsMarker s.mem (s.addr + s.offset - 1#32) s.size.toNat k →
      t.mem.read (blk (s.addr + s.offset - 1#32) k) = s.mem.read (blk (s.addr + s.offset - 1#32) k)) ∧
    ((254 < s.size.toNat ∨ ¬ AllAdmitted s.platform (s.addr + s.offset - 1#32) (s.size.toNat + 1)) → t.mem = s.mem)

/-- 41_encoder R87: ENCODE's result does not depend on what the overhead byte held, and ENCODE never writes a non-zero payload byte. -/
def Obligations.EncodeIgnoresTheOldOverheadByte : Prop :=
  ∀ (s : State) (v : Byte),
    s.size.toNat ≤ 254 → AllAdmitted s.platform (s.addr + s.offset - 1#32) (s.size.toNat + 1) →
    ∃ t t', exec .encode s = .next t ∧
      exec .encode { s with mem := s.mem.write (blk (s.addr + s.offset - 1#32) 0) v } = .next t' ∧
      t.result = t'.result ∧ t.status = t'.status ∧ t.engine = t'.engine ∧ (∀ a, t.mem.read a = t'.mem.read a) ∧
      ∀ k, 1 ≤ k → k ≤ s.size.toNat → s.mem.read (blk (s.addr + s.offset - 1#32) k) ≠ 0x00#8 →
        t.mem.read (blk (s.addr + s.offset - 1#32) k) = s.mem.read (blk (s.addr + s.offset - 1#32) k)

/-- No byte of an encoded block is 0x00, for every `n` from 0 to 254 (41_encoder section 3, the spec's own derived sentence; it is the
guarantee to a framer of 43_overhead_and_framing section 2). -/
def Obligations.EncodedBlockHasNoZeroByte : Prop :=
  ∀ s : State,
    s.size.toNat ≤ 254 → AllAdmitted s.platform (s.addr + s.offset - 1#32) (s.size.toNat + 1) →
    ∃ t, exec .encode s = .next t ∧ t.status = 0x00000001#32 ∧
      ∀ k, k ≤ s.size.toNat → t.mem.read (blk (s.addr + s.offset - 1#32) k) ≠ 0x00#8

/-- The ranges of the markers: the overhead byte 1 to 255 and at most n + 1, a payload marker 1 to 254, and the overhead byte is 1 if the
first payload byte was 0x00 (41_encoder section 3, the spec's own derived sentences). -/
def Obligations.EncodeMarkersAreInRange : Prop :=
  ∀ s : State,
    s.size.toNat ≤ 254 → AllAdmitted s.platform (s.addr + s.offset - 1#32) (s.size.toNat + 1) →
    ∃ t, exec .encode s = .next t ∧
      (1 ≤ (t.mem.read (blk (s.addr + s.offset - 1#32) 0)).toNat ∧
        (t.mem.read (blk (s.addr + s.offset - 1#32) 0)).toNat ≤ s.size.toNat + 1) ∧
      (∀ k, 1 ≤ k → k ≤ s.size.toNat → s.mem.read (blk (s.addr + s.offset - 1#32) k) = 0x00#8 →
        1 ≤ (t.mem.read (blk (s.addr + s.offset - 1#32) k)).toNat ∧
        (t.mem.read (blk (s.addr + s.offset - 1#32) k)).toNat ≤ 254) ∧
      (1 ≤ s.size.toNat → s.mem.read (blk (s.addr + s.offset - 1#32) 1) = 0x00#8 →
        t.mem.read (blk (s.addr + s.offset - 1#32) 0) = 0x01#8)

/-- A payload with no 0x00 (an already encoded block among them): only the overhead byte is written, with n + 1 (41_encoder section 4,
the spec's own derived sentences). A payload of 0x00 only becomes n + 1 bytes of 0x01. -/
def Obligations.EncodeOfZeroFreeAndAllZeroPayloads : Prop :=
  ∀ s : State,
    s.size.toNat ≤ 254 → AllAdmitted s.platform (s.addr + s.offset - 1#32) (s.size.toNat + 1) →
    ∃ t, exec .encode s = .next t ∧
      ((∀ k, 1 ≤ k → k ≤ s.size.toNat → s.mem.read (blk (s.addr + s.offset - 1#32) k) ≠ 0x00#8) →
        (t.mem.read (blk (s.addr + s.offset - 1#32) 0)).toNat = s.size.toNat + 1 ∧
        ∀ a, a ≠ blk (s.addr + s.offset - 1#32) 0 → t.mem.read a = s.mem.read a) ∧
      ((∀ k, 1 ≤ k → k ≤ s.size.toNat → s.mem.read (blk (s.addr + s.offset - 1#32) k) = 0x00#8) →
        ∀ k, k ≤ s.size.toNat → t.mem.read (blk (s.addr + s.offset - 1#32) k) = 0x01#8)

/-! ### DECODE -/

/-- DECODE of an admitted block of `s = SIZE` bytes, 1 to 255, whose chain meets no 0x00 completes: RESULT = s - 1, STATUS =
0x00000001, 0x00 at every chain position and every other byte unchanged, wherever the last jump lands (42_decoder R101, R103). -/
def Obligations.DecodeClearsTheChain : Prop :=
  ∀ s : State,
    1 ≤ s.size.toNat → s.size.toNat ≤ 255 → AllAdmitted s.platform s.addr s.size.toNat →
    ChainClear s.mem s.addr s.size.toNat →
    ∃ m, exec .decode s = .next { s with mem := m, result := s.size - 1#32, status := 0x00000001#32, engine := .idle } ∧
      DecodedBlock s.mem m s.addr s.size.toNat ∧ UntouchedOutside s.mem m s.addr s.size.toNat

/-- DECODE of an admitted block whose chain meets 0x00 never completes: the engine is HUNG, RESULT and STATUS are unchanged, memory
holds 0x00 at every chain position up to that one and is otherwise unchanged, and the engine's further steps change nothing
(42_decoder R104; that a hang is a NEXT state is the model's reading, log entry 7, DEDUCED). -/
def Obligations.DecodeOfAZeroCodeByteHangs : Prop :=
  ∀ s : State,
    1 ≤ s.size.toNat → s.size.toNat ≤ 255 → AllAdmitted s.platform s.addr s.size.toNat →
    ¬ ChainClear s.mem s.addr s.size.toNat →
    ∃ m, exec .decode s = .next { s with mem := m, engine := .hung (capture s) } ∧
      DecodedBlock s.mem m s.addr s.size.toNat ∧ UntouchedOutside s.mem m s.addr s.size.toNat ∧
      engineStep { s with mem := m, engine := .hung (capture s) } = { s with mem := m, engine := .hung (capture s) }

/-- 42_decoder R105: RESULT and STATUS on completion, on failure and on a hang; no other register is written. -/
def Obligations.DecodeResultAndStatus : Prop :=
  ∀ s : State,
    ((s.size.toNat < 1 ∨ 255 < s.size.toNat) →
      exec .decode s = .next { s with result := 0x00000000#32, status := 0x00000007#32, engine := .idle }) ∧
    (1 ≤ s.size.toNat → s.size.toNat ≤ 255 → AllAdmitted s.platform s.addr s.size.toNat →
      (ChainClear s.mem s.addr s.size.toNat →
        ∃ m, exec .decode s =
          .next { s with mem := m, result := s.size - 1#32, status := 0x00000001#32, engine := .idle }) ∧
      (¬ ChainClear s.mem s.addr s.size.toNat →
        ∃ m, exec .decode s = .next { s with mem := m, engine := .hung (capture s) }))

/-- 42_decoder R99: DECODE fails its size check exactly when `s < 1` or `s > 255`, unsigned, and then accesses no memory; every `s`
from 1 to 255 passes. -/
def Obligations.DecodeSizeCheck : Prop :=
  ∀ s : State,
    (checkCommand .decode (capture s) s.platform = .badSize ↔ s.size.toNat < 1 ∨ 255 < s.size.toNat) ∧
    ((s.size.toNat < 1 ∨ 255 < s.size.toNat) →
      exec .decode s = .next { s with result := 0x00000000#32, status := 0x00000007#32, engine := .idle })

/-- 42_decoder R100 and 20_memory R42: if some byte of the whole declared region is not admitted, on the chain or not, DECODE is stuck.
That a stuck command is a NEXT state, BUSY (10_state R30), whose engine step changes nothing where R42 says that the engine has no
next step, is the model's reading (log entry 6, DEDUCED). -/
def Obligations.DecodeOfAnInadmissibleRegionIsStuck : Prop :=
  ∀ s : State,
    1 ≤ s.size.toNat → s.size.toNat ≤ 255 → ¬ AllAdmitted s.platform s.addr s.size.toNat →
    exec .decode s = .next { s with engine := .busy (.stuck .decode (capture s)) } ∧
    engineStep { s with engine := .busy (.stuck .decode (capture s)) } = { s with engine := .busy (.stuck .decode (capture s)) }

/-- The frame of DECODE: every register but RESULT and STATUS, the parameters, the model's own fields and every byte outside the region
`blk(0..s-1)` are unchanged; off the chain no byte of the region is changed either; if the size check or the admission check
fails, all of memory is unchanged (20_memory R46; 42_decoder section 2). -/
def Obligations.DecodeFrame : Prop :=
  ∀ s t : State, exec .decode s = .next t →
    t.addr = s.addr ∧ t.offset = s.offset ∧ t.size = s.size ∧ t.platform = s.platform ∧ t.events = s.events ∧
    t.hostReads = s.hostReads ∧ t.outsideReads = s.outsideReads ∧ t.draws = s.draws ∧
    UntouchedOutside s.mem t.mem s.addr s.size.toNat ∧
    (∀ k, k < s.size.toNat → ¬ OnChain s.mem s.addr s.size.toNat k →
      t.mem.read (blk s.addr k) = s.mem.read (blk s.addr k)) ∧
    ((s.size.toNat < 1 ∨ 255 < s.size.toNat ∨ ¬ AllAdmitted s.platform s.addr s.size.toNat) → t.mem = s.mem)

/-- DECODE ignores OFFSET (42_decoder R98): with any other value there, memory, RESULT and STATUS come out the same, and the command
ends or does not end alike. -/
def Obligations.DecodeIgnoresOffset : Prop :=
  ∀ (s : State) (v : Word),
    ∃ t t', exec .decode s = .next t ∧ exec .decode { s with offset := v } = .next t' ∧
      t'.mem = t.mem ∧ t'.result = t.result ∧ t'.status = t.status ∧ (t'.engine = .idle ↔ t.engine = .idle) ∧ t'.offset = v

/-- A DECODE that completes leaves 0x00 at the overhead byte (42_decoder section 2, the spec's own derived sentence), so that a second
DECODE of the same block hangs (42_decoder section 4, likewise). -/
def Obligations.DecodingTwiceHangs : Prop :=
  ∀ s t : State, exec .decode s = .next t → t.engine = .idle → t.status = 0x00000001#32 →
    t.mem.read (blk s.addr 0) = 0x00#8 ∧ ∃ u, exec .decode t = .next u ∧ u.engine = .hung (capture t)

/-- An admitted block of 1 to 255 bytes with no 0x00 at all never hangs, whether or not ENCODE made it: DECODE completes with RESULT =
s - 1 (42_decoder sections 3 and 4, the spec's own derived sentences). -/
def Obligations.ZeroFreeBlockNeverHangs : Prop :=
  ∀ s : State,
    1 ≤ s.size.toNat → s.size.toNat ≤ 255 → AllAdmitted s.platform s.addr s.size.toNat →
    (∀ k, k < s.size.toNat → s.mem.read (blk s.addr k) ≠ 0x00#8) →
    ∃ t, exec .decode s = .next t ∧ t.engine = .idle ∧ t.result = s.size - 1#32 ∧ t.status = 0x00000001#32 ∧
      t.mem.read (blk s.addr 0) = 0x00#8

/-- ROUND TRIP (42_decoder section 3, the spec's own derived sentence): ENCODE of any payload of 0 to 254 bytes in an admitted region,
then DECODE with ADDR = p - 1 and SIZE = n + 1, gives RESULT = n, the payload back byte for byte in place, 0x00 at the overhead
byte, and every other byte unchanged. -/
def Obligations.RoundTripRestoresThePayload : Prop :=
  ∀ s : State,
    s.size.toNat ≤ 254 → AllAdmitted s.platform (s.addr + s.offset - 1#32) (s.size.toNat + 1) →
    ∃ t u, exec .encode s = .next t ∧
      exec .decode { t with addr := s.addr + s.offset - 1#32, size := s.size + 1#32 } = .next u ∧
      u.engine = .idle ∧ u.result = s.size ∧ u.status = 0x00000001#32 ∧
      (∀ k, 1 ≤ k → k ≤ s.size.toNat →
        u.mem.read (blk (s.addr + s.offset - 1#32) k) = s.mem.read (blk (s.addr + s.offset - 1#32) k)) ∧
      u.mem.read (blk (s.addr + s.offset - 1#32) 0) = 0x00#8 ∧
      UntouchedOutside s.mem u.mem (s.addr + s.offset - 1#32) (s.size.toNat + 1)

/-! ### OVERHEAD -/

/-- 43_overhead_and_framing R114, R115: from every state, for every SIZE, OVERHEAD completes with RESULT 1 and STATUS 0x00000001, and
changes nothing else: no memory access, no SizeRange, never stuck, never hung. -/
def Obligations.OverheadAlwaysReportsOne : Prop :=
  ∀ s : State,
    exec .overhead s = .next { s with result := 0x00000001#32, status := 0x00000001#32, engine := .idle }

/-! ### STATUS across commands -/

/-- 10_state R25: a completion sets DONE whether the command succeeded or failed, a stuck or hung command does not write it, and no
step but a reset clears it. -/
def Obligations.DoneIsSetByCompletionAndClearedByResetOnly : Prop :=
  (∀ (i : Instr) (s t : State), exec i s = .next t →
    (t.engine = .idle → statusDone t.status = true) ∧ (t.engine ≠ .idle → t.status = s.status)) ∧
  (∀ s t : State, step s = .next t → (∀ rest, s.events ≠ .reset :: rest) →
    statusDone s.status = true → statusDone t.status = true)

/-- 40_dispatch R80: a command that is stuck or hangs writes neither RESULT nor STATUS, and the state after it is not a final one. -/
def Obligations.StuckAndHungCommandsWriteNoResult : Prop :=
  ∀ (i : Instr) (s t : State), exec i s = .next t → t.engine ≠ .idle →
    t.NeverCompletes ∧ t.result = s.result ∧ t.status = s.status ∧ ¬ t.Final

/-- Nothing but a reset moves a stuck or hung engine: whatever else happens, the engine, RESULT and STATUS stay as they are and the
host gets nothing back (20_memory R42, 42_decoder R104, 60_exceptions R134; log entry 5). -/
def Obligations.OnlyResetLeavesStuckOrHung : Prop :=
  ∀ s t : State, s.NeverCompletes → step s = .next t → (∀ rest, s.events ≠ .reset :: rest) →
    t.engine = s.engine ∧ t.result = s.result ∧ t.status = s.status ∧ t.hostReads = s.hostReads ∧
    t.addr = s.addr ∧ t.offset = s.offset ∧ t.size = s.size

/-- 10_state R29: no step changes ADDR, OFFSET or SIZE but a host write to that register (or a reset, 70_reset_and_hazards R138). -/
def Obligations.OnlyHostWritesChangeOperandRegisters : Prop :=
  ∀ s t : State, step s = .next t → (∀ rest, s.events ≠ .reset :: rest) →
    (t.addr = s.addr ∨ ∃ v rest, s.events = .host (.regWrite .word 0x04#32 v) :: rest ∧ t.addr = v) ∧
    (t.offset = s.offset ∨ ∃ v rest, s.events = .host (.regWrite .word 0x08#32 v) :: rest ∧ t.offset = v) ∧
    (t.size = s.size ∨ ∃ v rest, s.events = .host (.regWrite .word 0x0C#32 v) :: rest ∧ t.size = v)

/-! ### The host's transactions -/

/-- The eight words of the register window as the host reads them (10_state R17, R19, R28): a read gives the register's value back and
changes nothing else (10_state R37). -/
def Obligations.RegisterReadsHaveNoSideEffect : Prop :=
  ∀ (s : State) (off : Word) (rest : List Event),
    s.engine = .idle → s.events = .host (.regRead .word off) :: rest →
    (off = 0x00#32 → step s = .next { s with events := rest, hostReads := 0x00000000#32 :: s.hostReads }) ∧
    (off = 0x04#32 → step s = .next { s with events := rest, hostReads := s.addr :: s.hostReads }) ∧
    (off = 0x08#32 → step s = .next { s with events := rest, hostReads := s.offset :: s.hostReads }) ∧
    (off = 0x0C#32 → step s = .next { s with events := rest, hostReads := s.size :: s.hostReads }) ∧
    (off = 0x10#32 → step s = .next { s with events := rest, hostReads := s.result :: s.hostReads }) ∧
    (off = 0x14#32 → step s = .next { s with events := rest, hostReads := s.status :: s.hostReads }) ∧
    ((off = 0x18#32 ∨ off = 0x1C#32) → step s = .next { s with events := rest, hostReads := 0x00000000#32 :: s.hostReads })

/-- Host writes to the window but for CMD (10_state R20 to R24, R28): ADDR, OFFSET and SIZE take all 32 bits, and a write to RESULT,
STATUS or a reserved offset is ignored. -/
def Obligations.RegisterWritesReachOperandRegistersOnly : Prop :=
  ∀ (s : State) (off v : Word) (rest : List Event),
    s.engine = .idle → s.events = .host (.regWrite .word off v) :: rest →
    (off = 0x04#32 → step s = .next { s with events := rest, addr := v }) ∧
    (off = 0x08#32 → step s = .next { s with events := rest, offset := v }) ∧
    (off = 0x0C#32 → step s = .next { s with events := rest, size := v }) ∧
    ((off = 0x10#32 ∨ off = 0x14#32 ∨ off = 0x18#32 ∨ off = 0x1C#32) → step s = .next { s with events := rest })

/-- 10_state R28: the reserved offsets read 0x00000000, and a write there changes no state. -/
def Obligations.ReservedOffsetsReadZeroAndIgnoreWrites : Prop :=
  ∀ (s : State) (off v : Word) (rest : List Event),
    s.engine = .idle → (off = 0x18#32 ∨ off = 0x1C#32) →
    (s.events = .host (.regRead .word off) :: rest →
      step s = .next { s with events := rest, hostReads := 0x00000000#32 :: s.hostReads }) ∧
    (s.events = .host (.regWrite .word off v) :: rest → step s = .next { s with events := rest })

/-- 10_state R18: a register is reached only by a 32-bit access at an offset that is a multiple of 4 inside the window; any other
access that touches the window (narrower, misaligned, or straddling an edge) is refused. -/
def Obligations.OnlyAlignedWordAccessesReachTheWindow : Prop :=
  ∀ (s : State) (width : Width) (off v : Word) (rest : List Event),
    s.engine = .idle →
    (s.events = .host (.regRead width off) :: rest ∨ s.events = .host (.regWrite width off v) :: rest) →
    ((width = .word ∧ off.toNat % 4 = 0 ∧ off.toNat < 32) → ∃ t, step s = .next t) ∧
    (¬ (width = .word ∧ off.toNat % 4 = 0 ∧ off.toNat < 32) →
      (∃ k, k < width.bytes ∧ (off + BitVec.ofNat 32 k).toNat < 32) → step s = .refused .windowAccess)

/-- The host's byte stores and loads on the one coherent memory (20_memory R39, R49): a store changes exactly the byte stored to, a load
gives back the byte there and changes nothing; in the register window both are refused (10_state R18, 20_memory R54). -/
def Obligations.HostByteAccesses : Prop :=
  ∀ (s : State) (a : Word) (v : Byte) (rest : List Event),
    s.engine = .idle →
    (s.events = .host (.storeByte a v) :: rest → inWindow s.platform a = false →
      ∃ m, step s = .next { s with events := rest, mem := m } ∧ m.read a = v ∧ ∀ b, b ≠ a → m.read b = s.mem.read b) ∧
    (s.events = .host (.loadByte a) :: rest → inWindow s.platform a = false →
      step s = .next { s with events := rest, hostReads := (s.mem.read a).setWidth 32 :: s.hostReads }) ∧
    ((s.events = .host (.storeByte a v) :: rest ∨ s.events = .host (.loadByte a) :: rest) →
      inWindow s.platform a = true → step s = .refused .windowAccess)

/-- While a command is in progress the host waits (40_dispatch R69, R73): with the engine BUSY or HUNG, a host transaction stays where
it is, nothing is given back to the host, and the step is the engine's. -/
def Obligations.HostWaitsForTheCommand : Prop :=
  ∀ (s : State) (t : Transaction) (w : Word) (rest : List Event),
    s.engine ≠ .idle → (s.events = .host t :: rest ∨ s.events = .issue w :: rest) →
    step s = .next (engineStep s) ∧ (engineStep s).events = s.events ∧ (engineStep s).hostReads = s.hostReads ∧
    (engineStep s).addr = s.addr ∧ (engineStep s).offset = s.offset ∧ (engineStep s).size = s.size

/-! ### The register window and the parameters -/

/-- A region that overlaps the register window makes the command stuck, and nothing but the engine state changes (20_memory R42, R54;
that a stuck command is a NEXT state is the model's reading, log entry 6, DEDUCED). -/
def Obligations.RegionOverTheWindowIsStuck : Prop :=
  ∀ (i : Instr) (s : State) (k : Nat),
    sizeOk i (capture s) = true → k < (commandRegion i (capture s)).len →
    inWindow s.platform (blk (commandRegion i (capture s)).base k) = true →
    exec i s = .next { s with engine := .busy (.stuck i (capture s)) }

/-- No step changes the parameters CODEC_BASE and Admitted (10_state R38). -/
def Obligations.ParametersNeverChange : Prop :=
  ∀ s t : State, step s = .next t → t.platform = s.platform

/-- What a step refuses, and nothing else: a host access to the window that is not an aligned word (or a byte access there), a register
transaction that does not touch the window, and an outside agent in the window. No step faults: the block has no trap
(60_exceptions R132). -/
def Obligations.StepRefusesNamedAccessesOnly : Prop :=
  ∀ s : State,
    (∃ t, step s = .next t) ∨
    (∃ e rest, s.events = e :: rest ∧
      ((s.engine = .idle ∧ ∃ width off v, (e = .host (.regRead width off) ∨ e = .host (.regWrite width off v)) ∧
          ¬ (width = .word ∧ off.toNat % 4 = 0 ∧ off.toNat < 32) ∧
          (step s = .refused .windowAccess ∨ step s = .refused .noRegisterThere)) ∨
       (s.engine = .idle ∧ ∃ a v, (e = .host (.loadByte a) ∨ e = .host (.storeByte a v)) ∧
          inWindow s.platform a = true ∧ step s = .refused .windowAccess) ∨
       (∃ a, e = .outside a ∧ inWindow s.platform a.address = true ∧ step s = .refused .outsideWindowAccess)))

/-! ### Reset -/

/-- 70_reset_and_hazards R140: a reset while a command is stuck or HUNG ends it without a result: every register 0, the engine IDLE, and
memory as the command had left it. -/
def Obligations.ResetEndsStuckAndHungCommands : Prop :=
  ∀ (s : State) (rest : List Event),
    s.events = .reset :: rest → s.NeverCompletes →
    step s = .next { s with
      events := rest, addr := 0#32, offset := 0#32, size := 0#32, result := 0#32, status := 0x00000000#32, engine := .idle }

/-- 70_reset_and_hazards R138, R139: a reset with no command in progress sets every register to 0 and leaves memory alone. -/
def Obligations.ResetFromIdle : Prop :=
  ∀ (s : State) (rest : List Event),
    s.events = .reset :: rest → s.engine = .idle →
    step s = .next { s with
      events := rest, addr := 0#32, offset := 0#32, size := 0#32, result := 0#32, status := 0x00000000#32, engine := .idle }

/-- 70_reset_and_hazards R141: a reset while an ENCODE or DECODE is BUSY, past its checks and not HUNG, ends it without a result; every
register is 0, every byte of the region holds a free value, and every other byte is unchanged. A reset during OVERHEAD or a
failing command leaves memory unchanged. The statement holds for every value of the free bytes. -/
def Obligations.ResetDuringACommand : Prop :=
  ∀ (s : State) (rest : List Event) (wk : Work),
    s.events = .reset :: rest → s.engine = .busy wk →
    ∃ t, step s = .next t ∧
      t.addr = 0#32 ∧ t.offset = 0#32 ∧ t.size = 0#32 ∧ t.result = 0#32 ∧ t.status = 0x00000000#32 ∧ t.engine = .idle ∧
      t.events = rest ∧ t.platform = s.platform ∧ t.hostReads = s.hostReads ∧ t.outsideReads = s.outsideReads ∧
      (∀ ops race phase, wk = .encode ops race phase →
        (∀ k, k < (encodeRegion ops).len →
          t.mem.read (blk (encodeRegion ops).base k) = Config.freeByte (s.draws + k)) ∧
        UntouchedOutside s.mem t.mem (encodeRegion ops).base (encodeRegion ops).len) ∧
      (∀ ops race phase, wk = .decode ops race phase →
        (∀ k, k < (decodeRegion ops).len →
          t.mem.read (blk (decodeRegion ops).base k) = Config.freeByte (s.draws + k)) ∧
        UntouchedOutside s.mem t.mem (decodeRegion ops).base (decodeRegion ops).len) ∧
      ((wk = .overhead ∨ ∃ c, wk = .failing c) → t.mem = s.mem)

/-- The register values of 10_state R35 right after reset, as the host reads them, and an IDLE engine. (The parameters and the memory of
`State.reset` are the model's choice, log entries 1 and 2: nothing is said of them here.) -/
def Obligations.ResetRegistersReadZero : Prop :=
  (∀ r : Reg, readReg r State.reset = 0x00000000#32) ∧ State.reset.engine = .idle

/-- The commands right after reset (70_reset_and_hazards section 1, the spec's own derived sentences), with ADDR, OFFSET and SIZE 0:
ENCODE writes [01] at 0xFFFFFFFF if that address is admitted and is stuck otherwise (a NEXT state by log entry 6, DEDUCED); DECODE
raises SizeRange; OVERHEAD returns 1. -/
def Obligations.CommandsOnResetOperands : Prop :=
  ∀ s : State, s.addr = 0#32 → s.offset = 0#32 → s.size = 0#32 →
    (admitted s.platform 0xFFFFFFFF#32 = true →
      ∃ t, exec .encode s = .next t ∧ t.result = 1#32 ∧ t.status = 0x00000001#32 ∧ t.engine = .idle ∧
        t.mem.read 0xFFFFFFFF#32 = 0x01#8 ∧ ∀ a, a ≠ 0xFFFFFFFF#32 → t.mem.read a = s.mem.read a) ∧
    (admitted s.platform 0xFFFFFFFF#32 = false →
      exec .encode s = .next { s with engine := .busy (.stuck .encode (capture s)) }) ∧
    exec .decode s = .next { s with result := 0#32, status := 0x00000007#32, engine := .idle } ∧
    exec .overhead s = .next { s with result := 1#32, status := 0x00000001#32, engine := .idle }

/-! ### Outside agents -/

/-- An outside access to the region of an ENCODE or DECODE in progress races it (20_memory R48): a read gets a free byte and marks the
command as read-raced (a write-raced one stays so), a write marks it as write-raced, and nothing else changes yet: no register and
no byte of memory. The statement holds for every value of the free byte. That the region's free bytes appear at the command's end
only is the model's form of the race (log entry 8, DESIGN CHOICE). -/
def Obligations.OutsideAccessRacesTheCommand : Prop :=
  ∀ (s : State) (a : OutsideAccess) (rest : List Event) (ops : Operands) (race : Race),
    s.events = .outside a :: rest → inWindow s.platform a.address = false → races a s = true →
    (∀ phase : EncodePhase, s.engine = .busy (.encode ops race phase) →
      (∀ x, a = .read x → step s = .next { s with
        events := rest, engine := .busy (.encode ops (if race = .write then .write else .read) phase),
        outsideReads := Config.freeByte s.draws :: s.outsideReads, draws := s.draws + 1 }) ∧
      (∀ x v, a = .write x v → step s = .next { s with events := rest, engine := .busy (.encode ops .write phase) })) ∧
    (∀ phase : DecodePhase, s.engine = .busy (.decode ops race phase) →
      (∀ x, a = .read x → step s = .next { s with
        events := rest, engine := .busy (.decode ops (if race = .write then .write else .read) phase),
        outsideReads := Config.freeByte s.draws :: s.outsideReads, draws := s.draws + 1 }) ∧
      (∀ x v, a = .write x v → step s = .next { s with events := rest, engine := .busy (.decode ops .write phase) }))

/-- An outside access to the region `r` of a stuck or HUNG command: a read gets a free byte, every byte of the region becomes a free
value at once, every other byte is unchanged, and the engine and the registers stay as they are. The statement holds for every
value of the free bytes. 20_memory R48 speaks of the bytes after the command, and such a command has no end: that they become
free at once is the model's choice (log entry 9, DESIGN CHOICE). -/
def Obligations.OutsideAccessToAStuckOrHungRegion : Prop :=
  ∀ (s : State) (a : OutsideAccess) (rest : List Event) (r : Region),
    s.events = .outside a :: rest → inWindow s.platform a.address = false → races a s = true →
    ((∃ i ops, s.engine = .busy (.stuck i ops) ∧ r = commandRegion i ops) ∨
      (∃ ops, s.engine = .hung ops ∧ r = decodeRegion ops)) →
    (∀ x, a = .read x →
      ∃ m, step s = .next { s with
          events := rest, mem := m, outsideReads := Config.freeByte s.draws :: s.outsideReads,
          draws := s.draws + 1 + r.len } ∧
        (∀ k, k < r.len → m.read (blk r.base k) = Config.freeByte (s.draws + 1 + k)) ∧
        UntouchedOutside s.mem m r.base r.len) ∧
    (∀ x v, a = .write x v →
      ∃ m, step s = .next { s with events := rest, mem := m, draws := s.draws + r.len } ∧
        (∀ k, k < r.len → m.read (blk r.base k) = Config.freeByte (s.draws + k)) ∧
        UntouchedOutside s.mem m r.base r.len)

/-- What a race leaves (20_memory R48): a raced ENCODE never hangs, and a read-raced DECODE hangs only where it would have hung
undisturbed, at a zero code byte it has read; a write-raced ENCODE is IDLE after the engine's next step, and a write-raced DECODE
is IDLE or HUNG: HUNG if it had read its zero code byte already (42_decoder R104), IDLE if it had no further code byte to read
(42_decoder R101; that its phase decides these two is the model's reading, log entry 21, DEDUCED); when a raced command ends, every byte of its region holds a free value, RESULT is still the command's result,
and nothing outside the region is touched by the step. The statement holds for every value of the free values. At which step a
raced command ends and its free bytes appear is the model's form of the race (log entry 8, DESIGN CHOICE). -/
def Obligations.RacedCommandLeavesFreeBytes : Prop :=
  ∀ (s : State) (ops : Operands) (race : Race), race ≠ .none →
    (∀ phase : EncodePhase, ops.size.toNat ≤ 254 → s.engine = .busy (.encode ops race phase) →
      (∀ o, (engineStep s).engine ≠ .hung o) ∧
      (race = .write → (engineStep s).engine = .idle) ∧
      ((engineStep s).engine = .idle →
        (engineStep s).result = ops.size + 1#32 ∧ (engineStep s).status = 0x00000001#32 ∧
        (∀ k, k ≤ ops.size.toNat → (engineStep s).mem.read (blk (encodeBase ops) k) = Config.freeByte (s.draws + k)) ∧
        UntouchedOutside s.mem (engineStep s).mem (encodeBase ops) (ops.size.toNat + 1))) ∧
    (∀ phase : DecodePhase, phase.Ok ops.size.toNat → 1 ≤ ops.size.toNat → ops.size.toNat ≤ 255 →
      s.engine = .busy (.decode ops race phase) →
      (∀ o, (engineStep s).engine = .hung o → o = ops ∧ (race = .write ∨ ∃ c, phase = .clear c 0x00#8)) ∧
      (race = .write → (engineStep s).engine = .idle ∨ (engineStep s).engine = .hung ops) ∧
      (∀ c, phase = .clear c 0x00#8 → (engineStep s).engine = .hung ops) ∧
      (∀ c, phase = .read c → ops.size.toNat ≤ c → (engineStep s).engine = .idle) ∧
      (∀ c v, race = .write → phase = .clear c v → v ≠ 0x00#8 → ops.size.toNat ≤ c + v.toNat →
        (engineStep s).engine = .idle) ∧
      ((engineStep s).engine = .idle → (engineStep s).result = ops.size - 1#32 ∧ (engineStep s).status = 0x00000001#32) ∧
      ((engineStep s).engine = .hung ops → (engineStep s).result = s.result ∧ (engineStep s).status = s.status) ∧
      ((engineStep s).engine = .idle ∨ (engineStep s).engine = .hung ops →
        (∀ k, k < ops.size.toNat → (engineStep s).mem.read (blk (decodeBase ops) k) = Config.freeByte (s.draws + k)) ∧
        UntouchedOutside s.mem (engineStep s).mem (decodeBase ops) ops.size.toNat))

/-- An outside access away from the window and from the region of any command in progress is an ordinary one on the one memory. That
outside agents share the coherent memory of the host and the engine is the model's reading (log entry 12, DEDUCED: 20_memory R49
speaks of the host and the engine only); that an access in the window is refused is the model's choice (log entry 14, DESIGN
CHOICE). -/
def Obligations.OutsideAccessElsewhereIsOrdinary : Prop :=
  ∀ (s : State) (a : Word) (v : Byte) (rest : List Event),
    (s.events = .outside (.read a) :: rest → inWindow s.platform a = false → races (.read a) s = false →
      step s = .next { s with events := rest, outsideReads := s.mem.read a :: s.outsideReads }) ∧
    (s.events = .outside (.write a v) :: rest → inWindow s.platform a = false → races (.write a v) s = false →
      ∃ m, step s = .next { s with events := rest, mem := m } ∧ m.read a = v ∧ ∀ b, b ≠ a → m.read b = s.mem.read b) ∧
    ((s.events = .outside (.read a) :: rest ∨ s.events = .outside (.write a v) :: rest) → inWindow s.platform a = true →
      step s = .refused .outsideWindowAccess)

/-! ### The engine step by step -/

/-- A CMD write whose engine steps are taken one by one makes the engine BUSY with the captured operands and touches nothing else
(10_state R30, 40_dispatch R69, R71); what it is BUSY with is the command word and the checks, in the order of 40_dispatch R75.
The step-by-step form itself is the model's (log entry 4, DEDUCED), and so is BUSY in a stuck command (log entry 6, DEDUCED). -/
def Obligations.IssuedCommandMakesTheEngineBusy : Prop :=
  ∀ (s : State) (w : Word) (rest : List Event),
    s.engine = .idle → s.events = .issue w :: rest →
    ∃ wk, step s = .next { s with events := rest, engine := .busy wk } ∧ wk.Ok s.platform ∧
      (∀ e, decodeCmd w = .error e → wk = .failing .illegalCmd) ∧
      (decodeCmd w = .ok .encode →
        (254 < s.size.toNat → wk = .failing .sizeRange) ∧
        (s.size.toNat ≤ 254 → ¬ AllAdmitted s.platform (s.addr + s.offset - 1#32) (s.size.toNat + 1) →
          wk = .stuck .encode { addr := s.addr, offset := s.offset, size := s.size }) ∧
        (s.size.toNat ≤ 254 → AllAdmitted s.platform (s.addr + s.offset - 1#32) (s.size.toNat + 1) →
          wk = .encode { addr := s.addr, offset := s.offset, size := s.size } .none .start)) ∧
      (decodeCmd w = .ok .decode →
        ((s.size.toNat < 1 ∨ 255 < s.size.toNat) → wk = .failing .sizeRange) ∧
        (1 ≤ s.size.toNat → s.size.toNat ≤ 255 → ¬ AllAdmitted s.platform s.addr s.size.toNat →
          wk = .stuck .decode { addr := s.addr, offset := s.offset, size := s.size }) ∧
        (1 ≤ s.size.toNat → s.size.toNat ≤ 255 → AllAdmitted s.platform s.addr s.size.toNat →
          wk = .decode { addr := s.addr, offset := s.offset, size := s.size } .none (.read 0))) ∧
      (decodeCmd w = .ok .overhead → wk = .overhead)

/-- REFINEMENT, for every command word, legal or not: the access-by-access engine of 41_encoder R86 and 42_decoder R101, undisturbed,
reaches exactly the state that the CMD write as one whole gives. The step-by-step form of a CMD write (log entry 4, DEDUCED) and
the size of an engine step, one byte access or the completion (log entry 16, DEDUCED), are the model's, and with them the bound of
`2 * SIZE + 6` steps: 70_reset_and_hazards R150 bounds the accesses, and R152 assumes nothing about the number of steps. -/
def Obligations.EngineStepsReachTheWholeCommand : Prop :=
  ∀ (s : State) (w : Word),
    s.engine = .idle → s.events = [.issue w] →
    ∃ k, k ≤ 2 * s.size.toNat + 6 ∧ Host.Core.run core k s = commandWrite w { s with events := [] }

/-- What one engine step does to memory, in every state that meets the invariant, raced or not: it changes nothing outside the
command's region (20_memory R46), and but for the step that ends a raced command it changes at most the one byte its phase names:
position 0 at the start of an ENCODE, the marker position `k` at a mark, the cursor `c` of a DECODE at a clear, and no byte at a
scan or a read. The engine accesses single bytes (20_memory R43); that one engine step is one byte access or the completion is
the model's reading (log entry 16, DEDUCED), and the step that ends a raced command redraws the region by log entry 8 (DESIGN
CHOICE). A step of OVERHEAD, of a failing command (40_dispatch R76) or of a stuck one (20_memory R42) changes no memory. -/
def Obligations.EngineStepTouchesOneRegionByte : Prop :=
  ∀ s : State, s.Inv →
    (∀ ops race phase, s.engine = .busy (.encode ops race phase) →
      UntouchedOutside s.mem (engineStep s).mem (encodeBase ops) (ops.size.toNat + 1) ∧
      (race ≠ .write →
        (phase = .start → ∀ a, a ≠ blk (encodeBase ops) 0 → (engineStep s).mem.read a = s.mem.read a) ∧
        (∀ k next, phase = .mark k next →
          k ≤ ops.size.toNat ∧ ∀ a, a ≠ blk (encodeBase ops) k → (engineStep s).mem.read a = s.mem.read a) ∧
        (∀ k next, phase = .scan k next → race = .none ∨ next ≠ 0 → (engineStep s).mem = s.mem))) ∧
    (∀ ops race phase, s.engine = .busy (.decode ops race phase) →
      UntouchedOutside s.mem (engineStep s).mem (decodeBase ops) ops.size.toNat ∧
      (race ≠ .write →
        (∀ c v, phase = .clear c v → race = .none ∨ v ≠ 0x00#8 →
          c < ops.size.toNat ∧ ∀ a, a ≠ blk (decodeBase ops) c → (engineStep s).mem.read a = s.mem.read a) ∧
        (∀ c, phase = .read c → race = .none ∨ c < ops.size.toNat → (engineStep s).mem = s.mem))) ∧
    (∀ wk, s.engine = .busy wk → (wk = .overhead ∨ (∃ c, wk = .failing c) ∨ ∃ i ops, wk = .stuck i ops) →
      (engineStep s).mem = s.mem)

/-! ### The invariant -/

/-- The invariant holds right after reset. -/
def Obligations.ResetMeetsTheInvariant : Prop := State.reset.Inv

/-- EVERY STEP KEEPS THE INVARIANT: memory in canonical form; STATUS one of the four words that occur (10_state R24); RESULT[31:8] = 0 and
RESULT 0 unless the last command succeeded (10_state R23); the working state one the checks and the pseudocode allow (10_state
R32). -/
def Obligations.EveryStepKeepsTheInvariant : Prop :=
  ∀ s t : State, s.Inv → step s = .next t → t.Inv
end

