-- ==== Sys2Proof/Laws/Memory.lean ====
section
/-! SUPPORT. The laws of the buffer memory: a read after a write, and that every operation keeps the canonical form. -/

namespace Sys2Proof.Machine

theorem Memory.read_erase_same (m : Memory) (a : Word) : (m.erase a.toNat).read a = Memory.unlisted := by
  induction m with
  | nil => rfl
  | cons c rest ih =>
    by_cases h : c.1 = a.toNat <;> simp [Memory.erase, Memory.read, h, ih]

theorem Memory.read_erase_other (m : Memory) {a b : Word} (h : b ≠ a) : (m.erase a.toNat).read b = m.read b := by
  have hn : a.toNat ≠ b.toNat := fun e => h (BitVec.eq_of_toNat_eq e.symm)
  induction m with
  | nil => rfl
  | cons c rest ih =>
    by_cases hc : c.1 = a.toNat
    · simp [Memory.erase, Memory.read, hc, ih, hn]
    · simp [Memory.erase, Memory.read, hc, ih]

theorem Memory.read_insertCell_same (m : Memory) (a : Word) (v : Byte)
    (hm : ∀ c ∈ m, c.1 ≠ a.toNat) :
    (m.insertCell (a.toNat, v)).read a = v := by
  induction m with
  | nil => simp [Memory.insertCell, Memory.read]
  | cons c rest ih =>
    have hc : c.1 ≠ a.toNat := hm c (by simp)
    have ih := ih (fun d hd => hm d (by simp [hd]))
    by_cases hlt : a.toNat < c.1 <;> simp [Memory.insertCell, Memory.read, hlt, hc, ih]

theorem Memory.read_insertCell_other (m : Memory) {a b : Word} (v : Byte) (h : b ≠ a) :
    (m.insertCell (a.toNat, v)).read b = m.read b := by
  have hn : a.toNat ≠ b.toNat := fun e => h (BitVec.eq_of_toNat_eq e.symm)
  induction m with
  | nil => simp [Memory.insertCell, Memory.read, hn]
  | cons c rest ih =>
    by_cases hlt : a.toNat < c.1
    · simp [Memory.insertCell, Memory.read, hlt, hn]
    · simp [Memory.insertCell, Memory.read, hlt, ih]

theorem Memory.key_ne_of_mem_erase (m : Memory) (k : Nat) : ∀ c ∈ m.erase k, c.1 ≠ k := by
  induction m with
  | nil => simp [Memory.erase]
  | cons d rest ih =>
    by_cases h : d.1 = k
    · simpa [Memory.erase, h] using ih
    · simpa [Memory.erase, h] using ih

/-- A read after a write to the same address gives the byte written, in every memory. -/
@[simp] theorem Memory.read_write_same (m : Memory) (a : Word) (v : Byte) : (m.write a v).read a = v := by
  by_cases h : v = Memory.unlisted
  · simp [Memory.write, h, Memory.read_erase_same]
  · simp only [Memory.write, h, if_false]
    exact Memory.read_insertCell_same _ a v (m.key_ne_of_mem_erase a.toNat)

/-- A write leaves every other address alone, in every memory. -/
theorem Memory.read_write_other (m : Memory) {a b : Word} (v : Byte) (h : b ≠ a) :
    (m.write a v).read b = m.read b := by
  by_cases hv : v = Memory.unlisted
  · simp [Memory.write, hv, Memory.read_erase_other m h]
  · simp [Memory.write, hv, Memory.read_insertCell_other _ v h, Memory.read_erase_other m h]

/-- What a byte reads as after a write. -/
theorem Memory.read_write (m : Memory) (a b : Word) (v : Byte) :
    (m.write a v).read b = if b = a then v else m.read b := by
  by_cases h : b = a
  · simp [h]
  · simp [h, Memory.read_write_other m v h]

theorem Memory.wfFrom_mono {m : Memory} {lo lo' : Nat} (h : m.wfFrom lo = true) (hle : lo' ≤ lo) :
    m.wfFrom lo' = true := by
  cases m with
  | nil => rfl
  | cons c rest =>
    simp only [Memory.wfFrom, Bool.and_eq_true, decide_eq_true_eq] at h ⊢
    exact ⟨⟨⟨by omega, h.1.1.2⟩, h.1.2⟩, h.2⟩

theorem Memory.wfFrom_erase {m : Memory} {lo : Nat} (k : Nat) (h : m.wfFrom lo = true) :
    (m.erase k).wfFrom lo = true := by
  induction m generalizing lo with
  | nil => rfl
  | cons c rest ih =>
    simp only [Memory.wfFrom, Bool.and_eq_true, decide_eq_true_eq] at h
    by_cases hc : c.1 = k
    · simp only [Memory.erase, hc, if_true]
      exact Memory.wfFrom_mono (ih h.2) (by omega)
    · simp only [Memory.erase, hc, if_false, Memory.wfFrom, Bool.and_eq_true, decide_eq_true_eq]
      exact ⟨h.1, ih h.2⟩

theorem Memory.wfFrom_insertCell {m : Memory} {lo k : Nat} {v : Byte} (h : m.wfFrom lo = true)
    (hk : ∀ c ∈ m, c.1 ≠ k) (hlo : lo ≤ k) (hlt : k < 2 ^ 32) (hv : v ≠ Memory.unlisted) :
    (m.insertCell (k, v)).wfFrom lo = true := by
  induction m generalizing lo with
  | nil => simp [Memory.insertCell, Memory.wfFrom, hlo, hv]; omega
  | cons c rest ih =>
    have hne : c.1 ≠ k := hk c (by simp)
    simp only [Memory.wfFrom, Bool.and_eq_true, decide_eq_true_eq] at h
    by_cases hc : k < c.1
    · simp only [Memory.insertCell, hc, if_true, Memory.wfFrom, Bool.and_eq_true, decide_eq_true_eq]
      exact ⟨⟨⟨hlo, hlt⟩, by simp [hv]⟩, ⟨⟨by omega, h.1.1.2⟩, h.1.2⟩, h.2⟩
    · simp only [Memory.insertCell, hc, if_false, Memory.wfFrom, Bool.and_eq_true, decide_eq_true_eq]
      exact ⟨h.1, ih h.2 (fun d hd => hk d (by simp [hd])) (by omega)⟩

/-- A write keeps the canonical form. -/
theorem Memory.wf_write {m : Memory} (a : Word) (v : Byte) (h : m.wf = true) : (m.write a v).wf = true := by
  have he := Memory.wfFrom_erase a.toNat h
  by_cases hv : v = Memory.unlisted
  · simp only [Memory.write, hv, if_true]
    exact he
  · simp only [Memory.write, hv, if_false]
    exact Memory.wfFrom_insertCell he (m.key_ne_of_mem_erase _) (Nat.zero_le _) a.isLt hv

theorem Memory.read_below {m : Memory} {lo : Nat} (h : m.wfFrom lo = true) {a : Word} (ha : a.toNat < lo) :
    m.read a = Memory.unlisted := by
  induction m generalizing lo with
  | nil => rfl
  | cons c rest ih =>
    simp only [Memory.wfFrom, Bool.and_eq_true, decide_eq_true_eq] at h
    have hc : c.1 ≠ a.toNat := by omega
    simp only [Memory.read, hc, if_false]
    exact ih h.2 (by omega)

theorem Memory.read_head {c : Host.Cell} {rest : Memory} {lo : Nat} (h : Memory.wfFrom (c :: rest) lo = true) :
    Memory.read (c :: rest) (BitVec.ofNat 32 c.1) = c.2 ∧ c.2 ≠ Memory.unlisted ∧ (BitVec.ofNat 32 c.1).toNat = c.1 := by
  simp only [Memory.wfFrom, Bool.and_eq_true, decide_eq_true_eq] at h
  have ht : (BitVec.ofNat 32 c.1).toNat = c.1 := by
    rw [BitVec.toNat_ofNat]; exact Nat.mod_eq_of_lt h.1.1.2
  exact ⟨by simp [Memory.read, ht], by simpa using h.1.2, ht⟩

theorem Memory.eq_of_read_eq_from {m m' : Memory} {lo : Nat} (h : m.wfFrom lo = true) (h' : m'.wfFrom lo = true)
    (hr : ∀ a, m.read a = m'.read a) : m = m' := by
  induction m generalizing m' lo with
  | nil =>
    cases m' with
    | nil => rfl
    | cons d rest' =>
      obtain ⟨hd, hne, -⟩ := Memory.read_head h'
      exact absurd ((hr _).trans hd).symm hne
  | cons c rest ih =>
    obtain ⟨hc, hcne, hcn⟩ := Memory.read_head h
    cases m' with
    | nil => exact absurd (hc.symm.trans (hr _)) hcne
    | cons d rest' =>
      obtain ⟨hd, hdne, hdn⟩ := Memory.read_head h'
      have hcd : c.1 = d.1 := by
        by_contra hne
        rcases Nat.lt_or_gt_of_ne hne with hlt | hlt
        · have h2 : Memory.wfFrom (d :: rest') d.1 = true := by
            simp only [Memory.wfFrom, Bool.and_eq_true, decide_eq_true_eq] at h' ⊢
            exact ⟨⟨⟨le_refl _, h'.1.1.2⟩, h'.1.2⟩, h'.2⟩
          exact hcne (hc.symm.trans ((hr _).trans (Memory.read_below h2 (by omega))))
        · have h2 : Memory.wfFrom (c :: rest) c.1 = true := by
            simp only [Memory.wfFrom, Bool.and_eq_true, decide_eq_true_eq] at h ⊢
            exact ⟨⟨⟨le_refl _, h.1.1.2⟩, h.1.2⟩, h.2⟩
          exact hdne (hd.symm.trans ((hr _).symm.trans (Memory.read_below h2 (by omega))))
      have hv : c = d := Prod.ext hcd (by
        have e := hr (BitVec.ofNat 32 c.1)
        rw [hc, hcd, hd] at e
        exact e)
      simp only [Memory.wfFrom, Bool.and_eq_true, decide_eq_true_eq] at h h'
      subst hv
      congr 1
      refine ih h.2 h'.2 (fun a => ?_)
      by_cases ha : c.1 = a.toNat
      · rw [Memory.read_below h.2 (by omega), Memory.read_below h'.2 (by omega)]
      · simpa [Memory.read, ha] using hr a

/-- Canonical memories that read alike are the same data. -/
theorem Memory.eq_of_read_eq {m m' : Memory} (h : m.wf = true) (h' : m'.wf = true)
    (hr : ∀ a, m.read a = m'.read a) : m = m' :=
  Memory.eq_of_read_eq_from h h' hr

end Sys2Proof.Machine
end

