-- ==== Sys2Proof/Laws/Block.lean ====
section
/-! SUPPORT. The laws of block positions and regions: positions below 2^32 have different addresses, and what the admission and size checks say. -/

namespace Sys2Proof.Machine

theorem blk_toNat_sub (base : Word) {k : Nat} (hk : k < 2 ^ 32) : (blk base k - base).toNat = k := by
  have h : blk base k - base = BitVec.ofNat 32 k := by
    rw [blk, BitVec.add_comm, BitVec.add_sub_cancel]
  rw [h, BitVec.toNat_ofNat, Nat.mod_eq_of_lt hk]

/-- Different positions below 2^32 have different addresses. -/
theorem blk_inj {base : Word} {j k : Nat} (hj : j < 2 ^ 32) (hk : k < 2 ^ 32) (h : blk base j = blk base k) : j = k := by
  rw [← blk_toNat_sub base hj, ← blk_toNat_sub base hk, h]

theorem blk_ne {base : Word} {j k : Nat} (hj : j < 2 ^ 32) (hk : k < 2 ^ 32) (h : j ≠ k) : blk base j ≠ blk base k :=
  fun e => h (blk_inj hj hk e)

theorem blk_of_sub (base a : Word) : blk base (a - base).toNat = a := by
  rw [blk, BitVec.ofNat_toNat, BitVec.setWidth_eq, BitVec.add_comm, BitVec.sub_add_cancel]

/-- A region contains exactly the addresses of its positions. -/
theorem Region.contains_iff {r : Region} (hr : r.len ≤ 2 ^ 32) (a : Word) :
    r.contains a = true ↔ ∃ k, k < r.len ∧ a = blk r.base k := by
  simp only [Region.contains, decide_eq_true_eq]
  constructor
  · intro h
    exact ⟨_, h, (blk_of_sub r.base a).symm⟩
  · rintro ⟨k, hk, rfl⟩
    rwa [blk_toNat_sub _ (by omega)]

theorem regionAdmitted_iff (p : Platform) (r : Region) :
    regionAdmitted p r = true ↔ AllAdmitted p r.base r.len := by
  simp [regionAdmitted, AllAdmitted]

theorem checkCommand_badSize {i : Instr} {ops : Operands} {p : Platform} :
    checkCommand i ops p = .badSize ↔ sizeOk i ops = false := by
  unfold checkCommand
  split <;> rename_i h
  · split <;> simp [h]
  · simpa using h

theorem checkCommand_inadmissible {i : Instr} {ops : Operands} {p : Platform} :
    checkCommand i ops p = .inadmissible ↔
      sizeOk i ops = true ∧ ¬ AllAdmitted p (commandRegion i ops).base (commandRegion i ops).len := by
  rw [← regionAdmitted_iff]
  unfold checkCommand
  split <;> rename_i h
  · split <;> rename_i h' <;> simp [h, h']
  · simp [h]

theorem checkCommand_run {i : Instr} {ops : Operands} {p : Platform} :
    checkCommand i ops p = .run ↔
      sizeOk i ops = true ∧ AllAdmitted p (commandRegion i ops).base (commandRegion i ops).len := by
  rw [← regionAdmitted_iff]
  unfold checkCommand
  split <;> rename_i h
  · split <;> rename_i h' <;> simp [h, h']
  · simp [h]

theorem sizeOk_encode (ops : Operands) : sizeOk .encode ops = true ↔ ops.size.toNat ≤ 254 := by
  simp [sizeOk, maxPayload]

theorem sizeOk_decode (ops : Operands) : sizeOk .decode ops = true ↔ 1 ≤ ops.size.toNat ∧ ops.size.toNat ≤ 255 := by
  simp [sizeOk, maxBlock]

/-- A region of any command has at most 2^32 positions, so its positions are distinct addresses. -/
theorem commandRegion_len_le (i : Instr) (ops : Operands) : (commandRegion i ops).len ≤ 2 ^ 32 := by
  have h := ops.size.isLt
  cases i <;> simp only [commandRegion, encodeRegion, decodeRegion] <;> omega

/-- The window is never admitted. -/
theorem not_admitted_of_inWindow {p : Platform} {a : Word} (h : inWindow p a = true) : admitted p a = false := by
  simp [admitted, h]

/-- Drawing free bytes into a region of at most 2^32 bytes: each position holds its own draw. -/
theorem drawBytes_read (base : Word) (d : Nat) {len : Nat} (hlen : len ≤ 2 ^ 32) (m : Memory) {k : Nat} (hk : k < len) :
    (drawBytes base d len m).read (blk base k) = Config.freeByte (d + k) := by
  induction len with
  | zero => omega
  | succ n ih =>
    by_cases h : k = n
    · simp [drawBytes, h]
    · rw [drawBytes, Memory.read_write_other _ _ (blk_ne (by omega) (by omega) h)]
      exact ih (by omega) (by omega)

/-- Drawing free bytes into a region leaves every address outside it alone. -/
theorem drawBytes_untouched (base : Word) (d len : Nat) (m : Memory) :
    UntouchedOutside m (drawBytes base d len m) base len := by
  induction len with
  | zero => exact fun _ _ => rfl
  | succ n ih =>
    intro a ha
    rw [drawBytes, Memory.read_write_other _ _ (ha n (by omega))]
    exact ih a (fun k hk => ha k (by omega))

theorem drawBytes_wf (base : Word) (d len : Nat) {m : Memory} (h : m.wf = true) :
    (drawBytes base d len m).wf = true := by
  induction len with
  | zero => exact h
  | succ n ih => exact Memory.wf_write _ _ ih

theorem UntouchedOutside.refl (m : Memory) (base : Word) (len : Nat) : UntouchedOutside m m base len :=
  fun _ _ => rfl

theorem UntouchedOutside.trans {m m' m'' : Memory} {base : Word} {len : Nat}
    (h : UntouchedOutside m m' base len) (h' : UntouchedOutside m' m'' base len) :
    UntouchedOutside m m'' base len :=
  fun a ha => (h' a ha).trans (h a ha)

theorem UntouchedOutside.write (m : Memory) {base : Word} {len k : Nat} (hk : k < len) (v : Byte) :
    UntouchedOutside m (m.write (blk base k) v) base len :=
  fun _ ha => Memory.read_write_other m v (ha k hk)

end Sys2Proof.Machine
end

