-- ==== Sys2Proof/Laws/Decode.lean ====
section
/-! SUPPORT. The fields of a command word decide the word, so the decoder accepts exactly the three words of 30_encoding R59 to R61. -/

namespace Sys2Proof

theorem opField_toNat (w : Word) : (opField w).toNat = w.toNat % 4 := by
  simp [opField]

theorem rsvField_eq_zero_iff (w : Word) : rsvField w = 0#30 ↔ w.toNat < 4 := by
  have h : (rsvField w).toNat = w.toNat / 4 := by
    have hw := w.isLt
    simp only [rsvField, BitVec.extractLsb'_toNat, Nat.shiftRight_eq_div_pow]
    omega
  constructor
  · intro h0
    have : (rsvField w).toNat = 0 := by rw [h0]; rfl
    omega
  · intro hlt
    exact BitVec.eq_of_toNat_eq (by rw [h]; show w.toNat / 4 = 0; omega)

/-- The decoder as 30_encoding R65 writes it. -/
theorem decodeCmd_eq (w : Word) :
    decodeCmd w =
      if w = 0x00000001#32 then .ok .encode
      else if w = 0x00000002#32 then .ok .decode
      else if w = 0x00000003#32 then .ok .overhead
      else .error (if rsvField w = 0#30 then .reservedOp else .reservedBits) := by
  by_cases h : rsvField w = 0#30
  · have hw := (rsvField_eq_zero_iff w).1 h
    have hcases : w = 0 ∨ w = 1 ∨ w = 2 ∨ w = 3 := by
      have : ∀ n, n < 2 ^ 32 → w.toNat = n → w = BitVec.ofNat 32 n := by
        intro n hn e
        exact BitVec.eq_of_toNat_eq (by rw [e, BitVec.toNat_ofNat, Nat.mod_eq_of_lt hn])
      have h4 : w.toNat = 0 ∨ w.toNat = 1 ∨ w.toNat = 2 ∨ w.toNat = 3 := by omega
      rcases h4 with e | e | e | e
      · exact .inl (this 0 (by omega) e)
      · exact .inr (.inl (this 1 (by omega) e))
      · exact .inr (.inr (.inl (this 2 (by omega) e)))
      · exact .inr (.inr (.inr (this 3 (by omega) e)))
    rcases hcases with rfl | rfl | rfl | rfl <;> rfl
  · have h1 : w ≠ 0x00000001#32 := by rintro rfl; exact h rfl
    have h2 : w ≠ 0x00000002#32 := by rintro rfl; exact h rfl
    have h3 : w ≠ 0x00000003#32 := by rintro rfl; exact h rfl
    rw [decodeCmd, if_pos h, if_neg h1, if_neg h2, if_neg h3, if_neg h]

end Sys2Proof
end

