-- ==== Sys2Proof/Laws/State.lean ====
section
/-! SUPPORT. What each named operation does to each field of State, one lemma per field, so that no later proof unfolds a record update. -/

namespace Sys2Proof.Machine

/-! ### complete -/

@[simp] theorem complete_addr (r : Byte) (s : State) : (complete r s).addr = s.addr := rfl
@[simp] theorem complete_offset (r : Byte) (s : State) : (complete r s).offset = s.offset := rfl
@[simp] theorem complete_size (r : Byte) (s : State) : (complete r s).size = s.size := rfl
@[simp] theorem complete_result (r : Byte) (s : State) : (complete r s).result = r.setWidth 32 := rfl
@[simp] theorem complete_status (r : Byte) (s : State) : (complete r s).status = statusSuccess := rfl
@[simp] theorem complete_engine (r : Byte) (s : State) : (complete r s).engine = .idle := rfl
@[simp] theorem complete_mem (r : Byte) (s : State) : (complete r s).mem = s.mem := rfl
@[simp] theorem complete_platform (r : Byte) (s : State) : (complete r s).platform = s.platform := rfl
@[simp] theorem complete_events (r : Byte) (s : State) : (complete r s).events = s.events := rfl
@[simp] theorem complete_hostReads (r : Byte) (s : State) : (complete r s).hostReads = s.hostReads := rfl
@[simp] theorem complete_outsideReads (r : Byte) (s : State) : (complete r s).outsideReads = s.outsideReads := rfl
@[simp] theorem complete_draws (r : Byte) (s : State) : (complete r s).draws = s.draws := rfl

/-! ### raiseError -/

@[simp] theorem raiseError_addr (c : Cause) (s : State) : (raiseError c s).addr = s.addr := rfl
@[simp] theorem raiseError_offset (c : Cause) (s : State) : (raiseError c s).offset = s.offset := rfl
@[simp] theorem raiseError_size (c : Cause) (s : State) : (raiseError c s).size = s.size := rfl
@[simp] theorem raiseError_result (c : Cause) (s : State) : (raiseError c s).result = 0#32 := rfl
@[simp] theorem raiseError_status (c : Cause) (s : State) : (raiseError c s).status = statusError c := rfl
@[simp] theorem raiseError_engine (c : Cause) (s : State) : (raiseError c s).engine = .idle := rfl
@[simp] theorem raiseError_mem (c : Cause) (s : State) : (raiseError c s).mem = s.mem := rfl
@[simp] theorem raiseError_platform (c : Cause) (s : State) : (raiseError c s).platform = s.platform := rfl
@[simp] theorem raiseError_events (c : Cause) (s : State) : (raiseError c s).events = s.events := rfl
@[simp] theorem raiseError_hostReads (c : Cause) (s : State) : (raiseError c s).hostReads = s.hostReads := rfl
@[simp] theorem raiseError_outsideReads (c : Cause) (s : State) : (raiseError c s).outsideReads = s.outsideReads := rfl
@[simp] theorem raiseError_draws (c : Cause) (s : State) : (raiseError c s).draws = s.draws := rfl

/-! ### stick -/

@[simp] theorem stick_addr (i : Instr) (ops : Operands) (s : State) : (stick i ops s).addr = s.addr := rfl
@[simp] theorem stick_offset (i : Instr) (ops : Operands) (s : State) : (stick i ops s).offset = s.offset := rfl
@[simp] theorem stick_size (i : Instr) (ops : Operands) (s : State) : (stick i ops s).size = s.size := rfl
@[simp] theorem stick_result (i : Instr) (ops : Operands) (s : State) : (stick i ops s).result = s.result := rfl
@[simp] theorem stick_status (i : Instr) (ops : Operands) (s : State) : (stick i ops s).status = s.status := rfl
@[simp] theorem stick_engine (i : Instr) (ops : Operands) (s : State) : (stick i ops s).engine = .busy (.stuck i ops) := rfl
@[simp] theorem stick_mem (i : Instr) (ops : Operands) (s : State) : (stick i ops s).mem = s.mem := rfl
@[simp] theorem stick_platform (i : Instr) (ops : Operands) (s : State) : (stick i ops s).platform = s.platform := rfl
@[simp] theorem stick_events (i : Instr) (ops : Operands) (s : State) : (stick i ops s).events = s.events := rfl
@[simp] theorem stick_hostReads (i : Instr) (ops : Operands) (s : State) : (stick i ops s).hostReads = s.hostReads := rfl
@[simp] theorem stick_outsideReads (i : Instr) (ops : Operands) (s : State) : (stick i ops s).outsideReads = s.outsideReads := rfl
@[simp] theorem stick_draws (i : Instr) (ops : Operands) (s : State) : (stick i ops s).draws = s.draws := rfl

/-! ### hang -/

@[simp] theorem hang_addr (ops : Operands) (s : State) : (hang ops s).addr = s.addr := rfl
@[simp] theorem hang_offset (ops : Operands) (s : State) : (hang ops s).offset = s.offset := rfl
@[simp] theorem hang_size (ops : Operands) (s : State) : (hang ops s).size = s.size := rfl
@[simp] theorem hang_result (ops : Operands) (s : State) : (hang ops s).result = s.result := rfl
@[simp] theorem hang_status (ops : Operands) (s : State) : (hang ops s).status = s.status := rfl
@[simp] theorem hang_engine (ops : Operands) (s : State) : (hang ops s).engine = .hung ops := rfl
@[simp] theorem hang_mem (ops : Operands) (s : State) : (hang ops s).mem = s.mem := rfl
@[simp] theorem hang_platform (ops : Operands) (s : State) : (hang ops s).platform = s.platform := rfl
@[simp] theorem hang_events (ops : Operands) (s : State) : (hang ops s).events = s.events := rfl
@[simp] theorem hang_hostReads (ops : Operands) (s : State) : (hang ops s).hostReads = s.hostReads := rfl
@[simp] theorem hang_outsideReads (ops : Operands) (s : State) : (hang ops s).outsideReads = s.outsideReads := rfl
@[simp] theorem hang_draws (ops : Operands) (s : State) : (hang ops s).draws = s.draws := rfl

/-! ### redrawRegion -/

@[simp] theorem redrawRegion_addr (r : Region) (s : State) : (redrawRegion r s).addr = s.addr := rfl
@[simp] theorem redrawRegion_offset (r : Region) (s : State) : (redrawRegion r s).offset = s.offset := rfl
@[simp] theorem redrawRegion_size (r : Region) (s : State) : (redrawRegion r s).size = s.size := rfl
@[simp] theorem redrawRegion_result (r : Region) (s : State) : (redrawRegion r s).result = s.result := rfl
@[simp] theorem redrawRegion_status (r : Region) (s : State) : (redrawRegion r s).status = s.status := rfl
@[simp] theorem redrawRegion_engine (r : Region) (s : State) : (redrawRegion r s).engine = s.engine := rfl
@[simp] theorem redrawRegion_mem (r : Region) (s : State) : (redrawRegion r s).mem = drawBytes r.base s.draws r.len s.mem := rfl
@[simp] theorem redrawRegion_platform (r : Region) (s : State) : (redrawRegion r s).platform = s.platform := rfl
@[simp] theorem redrawRegion_events (r : Region) (s : State) : (redrawRegion r s).events = s.events := rfl
@[simp] theorem redrawRegion_hostReads (r : Region) (s : State) : (redrawRegion r s).hostReads = s.hostReads := rfl
@[simp] theorem redrawRegion_outsideReads (r : Region) (s : State) : (redrawRegion r s).outsideReads = s.outsideReads := rfl
@[simp] theorem redrawRegion_draws (r : Region) (s : State) : (redrawRegion r s).draws = s.draws + r.len := rfl

/-! ### beginCommand -/

@[simp] theorem beginCommand_addr (w : Word) (s : State) : (beginCommand w s).addr = s.addr := rfl
@[simp] theorem beginCommand_offset (w : Word) (s : State) : (beginCommand w s).offset = s.offset := rfl
@[simp] theorem beginCommand_size (w : Word) (s : State) : (beginCommand w s).size = s.size := rfl
@[simp] theorem beginCommand_result (w : Word) (s : State) : (beginCommand w s).result = s.result := rfl
@[simp] theorem beginCommand_status (w : Word) (s : State) : (beginCommand w s).status = s.status := rfl
@[simp] theorem beginCommand_engine (w : Word) (s : State) : (beginCommand w s).engine = .busy (workOf w (capture s) s.platform) := rfl
@[simp] theorem beginCommand_mem (w : Word) (s : State) : (beginCommand w s).mem = s.mem := rfl
@[simp] theorem beginCommand_platform (w : Word) (s : State) : (beginCommand w s).platform = s.platform := rfl
@[simp] theorem beginCommand_events (w : Word) (s : State) : (beginCommand w s).events = s.events := rfl
@[simp] theorem beginCommand_hostReads (w : Word) (s : State) : (beginCommand w s).hostReads = s.hostReads := rfl
@[simp] theorem beginCommand_outsideReads (w : Word) (s : State) : (beginCommand w s).outsideReads = s.outsideReads := rfl
@[simp] theorem beginCommand_draws (w : Word) (s : State) : (beginCommand w s).draws = s.draws := rfl

/-! ### encodeBody -/

@[simp] theorem encodeBody_addr (ops : Operands) (s : State) : (encodeBody ops s).addr = s.addr := rfl
@[simp] theorem encodeBody_offset (ops : Operands) (s : State) : (encodeBody ops s).offset = s.offset := rfl
@[simp] theorem encodeBody_size (ops : Operands) (s : State) : (encodeBody ops s).size = s.size := rfl
@[simp] theorem encodeBody_result (ops : Operands) (s : State) : (encodeBody ops s).result = (encodeResult ops).setWidth 32 := rfl
@[simp] theorem encodeBody_status (ops : Operands) (s : State) : (encodeBody ops s).status = statusSuccess := rfl
@[simp] theorem encodeBody_engine (ops : Operands) (s : State) : (encodeBody ops s).engine = .idle := rfl
@[simp] theorem encodeBody_mem (ops : Operands) (s : State) : (encodeBody ops s).mem = encodeMemory (encodeBase ops) ops.size.toNat s.mem := rfl
@[simp] theorem encodeBody_platform (ops : Operands) (s : State) : (encodeBody ops s).platform = s.platform := rfl
@[simp] theorem encodeBody_events (ops : Operands) (s : State) : (encodeBody ops s).events = s.events := rfl
@[simp] theorem encodeBody_hostReads (ops : Operands) (s : State) : (encodeBody ops s).hostReads = s.hostReads := rfl
@[simp] theorem encodeBody_outsideReads (ops : Operands) (s : State) : (encodeBody ops s).outsideReads = s.outsideReads := rfl
@[simp] theorem encodeBody_draws (ops : Operands) (s : State) : (encodeBody ops s).draws = s.draws := rfl

/-! ### settleRace: the region is redrawn if the command was raced, and nothing else changes -/

@[simp] theorem settleRace_addr (x : Race) (r : Region) (s : State) : (settleRace x r s).addr = s.addr := by cases x <;> rfl
@[simp] theorem settleRace_offset (x : Race) (r : Region) (s : State) : (settleRace x r s).offset = s.offset := by cases x <;> rfl
@[simp] theorem settleRace_size (x : Race) (r : Region) (s : State) : (settleRace x r s).size = s.size := by cases x <;> rfl
@[simp] theorem settleRace_result (x : Race) (r : Region) (s : State) : (settleRace x r s).result = s.result := by cases x <;> rfl
@[simp] theorem settleRace_status (x : Race) (r : Region) (s : State) : (settleRace x r s).status = s.status := by cases x <;> rfl
@[simp] theorem settleRace_engine (x : Race) (r : Region) (s : State) : (settleRace x r s).engine = s.engine := by cases x <;> rfl
@[simp] theorem settleRace_platform (x : Race) (r : Region) (s : State) : (settleRace x r s).platform = s.platform := by cases x <;> rfl
@[simp] theorem settleRace_events (x : Race) (r : Region) (s : State) : (settleRace x r s).events = s.events := by cases x <;> rfl
@[simp] theorem settleRace_hostReads (x : Race) (r : Region) (s : State) : (settleRace x r s).hostReads = s.hostReads := by cases x <;> rfl
@[simp] theorem settleRace_outsideReads (x : Race) (r : Region) (s : State) : (settleRace x r s).outsideReads = s.outsideReads := by cases x <;> rfl
@[simp] theorem settleRace_none (r : Region) (s : State) : settleRace .none r s = s := rfl
@[simp] theorem settleRace_read (r : Region) (s : State) : settleRace .read r s = redrawRegion r s := rfl
@[simp] theorem settleRace_write (r : Region) (s : State) : settleRace .write r s = redrawRegion r s := rfl

/-! ### resetBlock -/

@[simp] theorem resetBlock_addr (s : State) : (resetBlock s).addr = 0#32 := rfl
@[simp] theorem resetBlock_offset (s : State) : (resetBlock s).offset = 0#32 := rfl
@[simp] theorem resetBlock_size (s : State) : (resetBlock s).size = 0#32 := rfl
@[simp] theorem resetBlock_result (s : State) : (resetBlock s).result = 0#32 := rfl
@[simp] theorem resetBlock_status (s : State) : (resetBlock s).status = 0#32 := rfl
@[simp] theorem resetBlock_engine (s : State) : (resetBlock s).engine = .idle := rfl
@[simp] theorem resetBlock_mem (s : State) : (resetBlock s).mem = (resetMemory s).mem := rfl
@[simp] theorem resetBlock_platform (s : State) : (resetBlock s).platform = (resetMemory s).platform := rfl
@[simp] theorem resetBlock_events (s : State) : (resetBlock s).events = (resetMemory s).events := rfl
@[simp] theorem resetBlock_hostReads (s : State) : (resetBlock s).hostReads = (resetMemory s).hostReads := rfl
@[simp] theorem resetBlock_outsideReads (s : State) : (resetBlock s).outsideReads = (resetMemory s).outsideReads := rfl
@[simp] theorem resetBlock_draws (s : State) : (resetBlock s).draws = (resetMemory s).draws := rfl
@[simp] theorem resetMemory_addr (s : State) : (resetMemory s).addr = s.addr := by unfold resetMemory; split <;> rfl
@[simp] theorem resetMemory_offset (s : State) : (resetMemory s).offset = s.offset := by unfold resetMemory; split <;> rfl
@[simp] theorem resetMemory_size (s : State) : (resetMemory s).size = s.size := by unfold resetMemory; split <;> rfl
@[simp] theorem resetMemory_result (s : State) : (resetMemory s).result = s.result := by unfold resetMemory; split <;> rfl
@[simp] theorem resetMemory_status (s : State) : (resetMemory s).status = s.status := by unfold resetMemory; split <;> rfl
@[simp] theorem resetMemory_engine (s : State) : (resetMemory s).engine = s.engine := by unfold resetMemory; split <;> rfl
@[simp] theorem resetMemory_platform (s : State) : (resetMemory s).platform = s.platform := by unfold resetMemory; split <;> rfl
@[simp] theorem resetMemory_events (s : State) : (resetMemory s).events = s.events := by unfold resetMemory; split <;> rfl
@[simp] theorem resetMemory_hostReads (s : State) : (resetMemory s).hostReads = s.hostReads := by unfold resetMemory; split <;> rfl
@[simp] theorem resetMemory_outsideReads (s : State) : (resetMemory s).outsideReads = s.outsideReads := by unfold resetMemory; split <;> rfl

/-! ### writeReg: only ADDR, OFFSET and SIZE can change -/

@[simp] theorem writeReg_addr_self (v : Word) (s : State) : (writeReg .addr v s).addr = v := rfl
@[simp] theorem writeReg_offset_self (v : Word) (s : State) : (writeReg .offset v s).offset = v := rfl
@[simp] theorem writeReg_size_self (v : Word) (s : State) : (writeReg .size v s).size = v := rfl
@[simp] theorem writeReg_result (r : Reg) (v : Word) (s : State) : (writeReg r v s).result = s.result := by cases r <;> rfl
@[simp] theorem writeReg_status (r : Reg) (v : Word) (s : State) : (writeReg r v s).status = s.status := by cases r <;> rfl
@[simp] theorem writeReg_engine (r : Reg) (v : Word) (s : State) : (writeReg r v s).engine = s.engine := by cases r <;> rfl
@[simp] theorem writeReg_mem (r : Reg) (v : Word) (s : State) : (writeReg r v s).mem = s.mem := by cases r <;> rfl
@[simp] theorem writeReg_platform (r : Reg) (v : Word) (s : State) : (writeReg r v s).platform = s.platform := by cases r <;> rfl
@[simp] theorem writeReg_events (r : Reg) (v : Word) (s : State) : (writeReg r v s).events = s.events := by cases r <;> rfl
@[simp] theorem writeReg_hostReads (r : Reg) (v : Word) (s : State) : (writeReg r v s).hostReads = s.hostReads := by cases r <;> rfl
@[simp] theorem writeReg_outsideReads (r : Reg) (v : Word) (s : State) : (writeReg r v s).outsideReads = s.outsideReads := by cases r <;> rfl
@[simp] theorem writeReg_draws (r : Reg) (v : Word) (s : State) : (writeReg r v s).draws = s.draws := by cases r <;> rfl

@[simp] theorem capture_addr (s : State) : (capture s).addr = s.addr := rfl
@[simp] theorem capture_offset (s : State) : (capture s).offset = s.offset := rfl
@[simp] theorem capture_size (s : State) : (capture s).size = s.size := rfl

end Sys2Proof.Machine
end

