-- ==== Sys2Proof/Laws/Decoder.lean ====
section
/-! SUPPORT. What DECODE's forward walk does (42_decoder R101 to R104): the chain, the loop invariant of the walk, and the whole command. -/

namespace Sys2Proof.Machine

theorem OnChain.lt_size {m : Memory} {base : Word} {size c : Nat} (h : OnChain m base size c) : c < size := by
  cases h <;> assumption

/-- The memory a walk leaves. -/
def Walk.mem : Walk → Memory
  | .ended m => m
  | .zeroCode m => m

/-- A walk touches its block only. -/
theorem decodeWalk_untouched (base : Word) (size fuel c : Nat) (m : Memory) :
    UntouchedOutside m (decodeWalk base size fuel c m).mem base size := by
  induction fuel generalizing c m with
  | zero => exact UntouchedOutside.refl _ _ _
  | succ fuel ih =>
    unfold decodeWalk
    by_cases hc : c < size
    · simp only [hc, if_true]
      split
      · exact UntouchedOutside.write m hc _
      · exact (UntouchedOutside.write m hc _).trans (ih _ _)
    · simp only [hc, if_false]
      exact UntouchedOutside.refl _ _ _

theorem decodeWalk_wf (base : Word) (size fuel c : Nat) {m : Memory} (h : m.wf = true) :
    (decodeWalk base size fuel c m).mem.wf = true := by
  induction fuel generalizing c m with
  | zero => exact h
  | succ fuel ih =>
    unfold decodeWalk
    by_cases hc : c < size
    · simp only [hc, if_true]
      split
      · exact Memory.wf_write _ _ h
      · exact ih _ (Memory.wf_write _ _ h)
    · simp only [hc, if_false]
      exact h

/-- The chain of 42_decoder R102 from a cursor `c`, in the memory at the CMD write. -/
inductive ChainFrom (m : Memory) (base : Word) (size : Nat) : Nat → Nat → Prop where
  | here {c : Nat} : c < size → ChainFrom m base size c c
  | jump {c k : Nat} : c < size → ChainFrom m base size (c + (m.read (blk base c)).toNat) k → ChainFrom m base size c k

theorem ChainFrom.lt_size {m : Memory} {base : Word} {size c k : Nat} (h : ChainFrom m base size c k) : k < size := by
  induction h with
  | here h => exact h
  | jump _ _ ih => exact ih

theorem ChainFrom.start_lt {m : Memory} {base : Word} {size c k : Nat} (h : ChainFrom m base size c k) : c < size := by
  cases h <;> assumption

theorem ChainFrom.start_le {m : Memory} {base : Word} {size c k : Nat} (h : ChainFrom m base size c k) : c ≤ k := by
  induction h with
  | here => exact le_refl _
  | jump _ _ ih => omega

/-- A chain that starts at a zero code byte goes nowhere else. -/
theorem ChainFrom.eq_of_zero {m : Memory} {base : Word} {size c k : Nat} (h : ChainFrom m base size c k)
    (h0 : m.read (blk base c) = 0x00#8) : k = c := by
  induction h with
  | here => rfl
  | @jump c k _ _ ih =>
    have e : c + (m.read (blk base c)).toNat = c := by rw [h0]; rfl
    rw [e] at ih
    exact ih h0

theorem ChainFrom.snoc {m : Memory} {base : Word} {size c k : Nat} (h : ChainFrom m base size c k)
    (hk : k + (m.read (blk base k)).toNat < size) : ChainFrom m base size c (k + (m.read (blk base k)).toNat) := by
  induction h with
  | here h => exact .jump h (.here hk)
  | jump h _ ih => exact .jump h (ih hk)

theorem onChain_iff_chainFrom (m : Memory) (base : Word) (size k : Nat) :
    OnChain m base size k ↔ ChainFrom m base size 0 k := by
  constructor
  · intro h
    induction h with
    | start h => exact .here h
    | jump _ hlt ih => exact ih.snoc hlt
  · have aux : ∀ c, ChainFrom m base size c k → OnChain m base size c → OnChain m base size k := by
      intro c h
      induction h with
      | here _ => exact id
      | jump hc hrest ih => exact fun ho => ih (.jump ho hrest.start_lt)
    exact fun h => aux 0 h (.start h.start_lt)

/-- A write at the cursor does not change the chain further on. -/
theorem chainFrom_congr {m m' : Memory} {base : Word} {size c k : Nat}
    (hm : ∀ j, c ≤ j → j < size → m'.read (blk base j) = m.read (blk base j)) (h : ChainFrom m base size c k) :
    ChainFrom m' base size c k := by
  induction h with
  | here h => exact .here h
  | @jump c k h hrest ih =>
    refine .jump h ?_
    rw [hm c (le_refl _) h]
    exact ih (fun j hj hjs => hm j (by omega) hjs)

theorem chainFrom_write_iff {m : Memory} {base : Word} {size c d k : Nat} (hs : size < 2 ^ 32) (hcd : c < d) (hc : c < size)
    (v : Byte) : ChainFrom (m.write (blk base c) v) base size d k ↔ ChainFrom m base size d k := by
  have hm : ∀ j, d ≤ j → j < size → (m.write (blk base c) v).read (blk base j) = m.read (blk base j) :=
    fun j hj hjs => Memory.read_write_other _ _ (blk_ne (by omega) (by omega) (by omega))
  exact ⟨chainFrom_congr (fun j hj hjs => (hm j hj hjs).symm), chainFrom_congr hm⟩

/-- The walk of 42_decoder R101 from cursor `c`: it clears exactly the chain from `c` on, and it meets a zero code byte exactly when
that chain does. -/
theorem decodeWalk_spec (base : Word) {size : Nat} (hs : size < 2 ^ 32) (fuel c : Nat) (m : Memory) (hf : size ≤ fuel + c) :
    ((∀ k, ChainFrom m base size c k → m.read (blk base k) ≠ 0x00#8) ∧ (∃ m', decodeWalk base size fuel c m = .ended m') ∨
      (∃ k, ChainFrom m base size c k ∧ m.read (blk base k) = 0x00#8) ∧ (∃ m', decodeWalk base size fuel c m = .zeroCode m')) ∧
    ∀ k, k < size →
      (ChainFrom m base size c k → (decodeWalk base size fuel c m).mem.read (blk base k) = 0x00#8) ∧
      (¬ ChainFrom m base size c k → (decodeWalk base size fuel c m).mem.read (blk base k) = m.read (blk base k)) := by
  induction fuel generalizing c m with
  | zero =>
    have hno : ∀ k, ¬ ChainFrom m base size c k := fun k h => by have := h.start_lt; omega
    exact ⟨.inl ⟨fun k h => absurd h (hno k), _, rfl⟩, fun k _ => ⟨fun h => absurd h (hno k), fun _ => rfl⟩⟩
  | succ fuel ih =>
    unfold decodeWalk
    by_cases hc : c < size
    · simp only [hc, if_true]
      by_cases h0 : m.read (blk base c) = 0x00#8
      · simp only [h0, if_true]
        have hself : ∀ k, ChainFrom m base size c k ↔ k = c := by
          intro k
          constructor
          · exact fun h => h.eq_of_zero h0
          · rintro rfl; exact .here hc
        refine ⟨.inr ⟨⟨c, .here hc, h0⟩, _, rfl⟩, fun k hk => ⟨fun h => ?_, fun h => ?_⟩⟩
        · obtain rfl := (hself k).1 h
          simp [Walk.mem]
        · have hkc : k ≠ c := fun e => h ((hself k).2 e)
          simp only [Walk.mem]
          exact Memory.read_write_other _ _ (blk_ne (by omega) (by omega) hkc)
      · simp only [h0, if_false]
        have hpos : 0 < (m.read (blk base c)).toNat := by
          rcases Nat.eq_zero_or_pos (m.read (blk base c)).toNat with h | h
          · exact absurd (BitVec.eq_of_toNat_eq (by simpa using h)) h0
          · exact h
        have hchain : ∀ k, ChainFrom m base size c k ↔ k = c ∨ ChainFrom m base size (c + (m.read (blk base c)).toNat) k := by
          intro k
          constructor
          · intro h
            cases h with
            | here _ => exact .inl rfl
            | jump _ h => exact .inr h
          · rintro (rfl | h)
            · exact .here hc
            · exact .jump hc h
        obtain ⟨hres, hmem⟩ := ih (c + (m.read (blk base c)).toNat) (m.write (blk base c) 0x00#8) (by omega)
        have hw : ∀ k, ChainFrom (m.write (blk base c) 0x00#8) base size (c + (m.read (blk base c)).toNat) k ↔
            ChainFrom m base size (c + (m.read (blk base c)).toNat) k :=
          fun k => chainFrom_write_iff hs (by omega) hc _
        have hrd : ∀ k, k ≠ c → k < size → (m.write (blk base c) 0x00#8).read (blk base k) = m.read (blk base k) :=
          fun k hk hks => Memory.read_write_other _ _ (blk_ne (by omega) (by omega) hk)
        have hne : ∀ k, ChainFrom m base size (c + (m.read (blk base c)).toNat) k → k ≠ c := by
          intro k h e
          have := h.start_le
          omega
        refine ⟨?_, fun k hk => ⟨fun h => ?_, fun h => ?_⟩⟩
        · rcases hres with ⟨hcl, he⟩ | ⟨⟨k, hk, hz⟩, he⟩
          · refine .inl ⟨fun k hk => ?_, he⟩
            rcases (hchain k).1 hk with rfl | hk
            · exact h0
            · rw [← hrd k (hne k hk) hk.lt_size]
              exact hcl k ((hw k).2 hk)
          · have hk' := (hw k).1 hk
            refine .inr ⟨⟨k, (hchain k).2 (.inr hk'), ?_⟩, he⟩
            rw [← hrd k (hne k hk') hk'.lt_size]
            exact hz
        · by_cases hkc : ChainFrom m base size (c + (m.read (blk base c)).toNat) k
          · exact (hmem k hk).1 ((hw k).2 hkc)
          · rcases (hchain k).1 h with rfl | h
            · rw [(hmem k hk).2 (fun hx => hkc ((hw k).1 hx)), Memory.read_write_same]
            · exact absurd h hkc
        · have hkc : k ≠ c := fun e => h ((hchain k).2 (.inl e))
          rw [(hmem k hk).2 (fun hx => h ((hchain k).2 (.inr ((hw k).1 hx)))), hrd k hkc hk]
    · simp only [hc, if_false]
      have hno : ∀ k, ¬ ChainFrom m base size c k := fun k h => hc h.start_lt
      exact ⟨.inl ⟨fun k h => absurd h (hno k), _, rfl⟩, fun k _ => ⟨fun h => absurd h (hno k), fun _ => rfl⟩⟩

/-- DECODE's walk over a whole block: it ends exactly when the chain is clear, and leaves 0x00 exactly on the chain. -/
theorem decodeWalk_whole (base : Word) {size : Nat} (hs : size < 2 ^ 32) (m : Memory) :
    (ChainClear m base size ∧ (∃ m', decodeWalk base size size 0 m = .ended m') ∨
      ¬ ChainClear m base size ∧ (∃ m', decodeWalk base size size 0 m = .zeroCode m')) ∧
    DecodedBlock m (decodeWalk base size size 0 m).mem base size := by
  obtain ⟨h1, h2⟩ := decodeWalk_spec base hs size 0 m (by omega)
  simp only [← onChain_iff_chainFrom] at h1 h2
  refine ⟨?_, h2⟩
  rcases h1 with ⟨h, he⟩ | ⟨⟨k, hk, hz⟩, he⟩
  · exact .inl ⟨h, he⟩
  · exact .inr ⟨fun h => h k hk hz, he⟩

/-- Everything DECODE's body can do: complete on a clear chain, hang on any other. -/
theorem decodeBody_cases (ops : Operands) (s : State) :
    ∃ m, DecodedBlock s.mem m (decodeBase ops) ops.size.toNat ∧ UntouchedOutside s.mem m (decodeBase ops) ops.size.toNat ∧
      (s.mem.wf = true → m.wf = true) ∧
      (ChainClear s.mem (decodeBase ops) ops.size.toNat ∧ decodeBody ops s = complete (decodeResult ops) { s with mem := m } ∨
        ¬ ChainClear s.mem (decodeBase ops) ops.size.toNat ∧ decodeBody ops s = hang ops { s with mem := m }) := by
  have hs : ops.size.toNat < 2 ^ 32 := ops.size.isLt
  obtain ⟨h, hd⟩ := decodeWalk_whole (decodeBase ops) hs s.mem
  refine ⟨_, hd, decodeWalk_untouched _ _ _ _ _, fun hw => decodeWalk_wf _ _ _ _ hw, ?_⟩
  unfold decodeBody
  rcases h with ⟨hc, m', he⟩ | ⟨hc, m', he⟩ <;> rw [he]
  · exact .inl ⟨hc, rfl⟩
  · exact .inr ⟨hc, rfl⟩

/-- Everything DECODE can do: fail its size check, stick on its admission check, or run its body (40_dispatch R75). -/
theorem execDecode_cases (s : State) :
    (¬ (1 ≤ s.size.toNat ∧ s.size.toNat ≤ 255) ∧ execDecode s = .next (raiseError .sizeRange s)) ∨
    ((1 ≤ s.size.toNat ∧ s.size.toNat ≤ 255) ∧ ¬ AllAdmitted s.platform s.addr s.size.toNat ∧
      execDecode s = .next (stick .decode (capture s) s)) ∨
    ((1 ≤ s.size.toNat ∧ s.size.toNat ≤ 255) ∧ AllAdmitted s.platform s.addr s.size.toNat ∧
      execDecode s = .next (decodeBody (capture s) s)) := by
  unfold execDecode
  split <;> rename_i h
  · exact .inl ⟨fun hle => by simp [checkCommand_badSize, (sizeOk_decode (capture s)).2 hle] at h, rfl⟩
  · rw [checkCommand_inadmissible, sizeOk_decode] at h
    exact .inr (.inl ⟨h.1, h.2, rfl⟩)
  · rw [checkCommand_run, sizeOk_decode] at h
    exact .inr (.inr ⟨h.1, h.2, rfl⟩)

/-- DECODE's RESULT as the register holds it (42_decoder R105). -/
theorem decodeResult_setWidth {ops : Operands} (h1 : 1 ≤ ops.size.toNat) (h : ops.size.toNat ≤ 255) :
    (decodeResult ops).setWidth 32 = ops.size - 1#32 := by
  apply BitVec.eq_of_toNat_eq
  simp [decodeResult, BitVec.toNat_sub]; omega

/-- How the walk over the whole block ends decides whether the chain is clear (42_decoder R109). -/
theorem chainClear_of_ended {base : Word} {size : Nat} {m m' : Memory} (hs : size < 2 ^ 32)
    (h : decodeWalk base size size 0 m = .ended m') : ChainClear m base size := by
  rcases (decodeWalk_whole base hs m).1 with ⟨hc, -⟩ | ⟨-, m'', he⟩
  · exact hc
  · rw [h] at he; cases he

theorem not_chainClear_of_zeroCode {base : Word} {size : Nat} {m m' : Memory} (hs : size < 2 ^ 32)
    (h : decodeWalk base size size 0 m = .zeroCode m') : ¬ ChainClear m base size := by
  rcases (decodeWalk_whole base hs m).1 with ⟨-, m'', he⟩ | ⟨hc, -⟩
  · rw [h] at he; cases he
  · exact hc

theorem execDecode_run {s : State} (hn : 1 ≤ s.size.toNat ∧ s.size.toNat ≤ 255)
    (ha : AllAdmitted s.platform s.addr s.size.toNat) : execDecode s = .next (decodeBody (capture s) s) := by
  rcases execDecode_cases s with ⟨h, -⟩ | ⟨-, h, -⟩ | ⟨-, -, h⟩
  · exact absurd hn h
  · exact absurd ha h
  · exact h

end Sys2Proof.Machine
end

