-- ==== Sys2Proof/Laws/Encoder.lean ====
section
/-! SUPPORT. What ENCODE's backward scan does (41_encoder R85 to R87): the loop invariant of the scan, and the whole command. -/

namespace Sys2Proof.Machine

/-- The scan from position `k` with terminator `next` touches positions `0..k` only. -/
theorem encodeScan_untouched (base : Word) (k next : Nat) (m : Memory) :
    UntouchedOutside m (encodeScan base k next m) base (k + 1) := by
  induction k generalizing next m with
  | zero => exact UntouchedOutside.write m (by omega) _
  | succ k ih =>
    intro a ha
    unfold encodeScan
    split
    · rw [ih _ _ a (fun j hj => ha j (by omega)), Memory.read_write_other _ _ (ha (k + 1) (by omega))]
    · exact ih _ _ a (fun j hj => ha j (by omega))

/-- A position the scan has already passed reads afterwards as before. -/
theorem encodeScan_above (base : Word) {k j n : Nat} (next : Nat) (m : Memory) (hkj : k < j) (hjn : j ≤ n) (hn : n < 2 ^ 32) :
    (encodeScan base k next m).read (blk base j) = m.read (blk base j) :=
  encodeScan_untouched base k next m _ (fun i hi => blk_ne (by omega) (by omega) (by omega))

/-- The scan of 41_encoder R86 from `k` with terminator `next`, over a block of payload length `n`: afterwards each marker position
up to `k` holds its distance to the next one (or to `next`), and every other position up to `k` is unchanged. -/
theorem encodeScan_spec (base : Word) {n k next : Nat} (m : Memory) (hn : n ≤ 254) (hk : k ≤ n) (hkn : k < next)
    (hnext : next ≤ n + 1) :
    ∀ j, j ≤ k →
      (IsMarker m base n j →
        ∃ z, j < z ∧ z ≤ next ∧ (z = next ∨ IsMarker m base n z) ∧ (∀ i, j < i → i < z → i ≤ k → ¬ IsMarker m base n i) ∧
          (z ≤ k ∨ z = next) ∧
          ((encodeScan base k next m).read (blk base j)).toNat = z - j) ∧
      (¬ IsMarker m base n j → (encodeScan base k next m).read (blk base j) = m.read (blk base j)) := by
  induction k generalizing next m with
  | zero =>
    intro j hj
    obtain rfl : j = 0 := by omega
    refine ⟨fun _ => ⟨next, by omega, le_refl _, .inl rfl, fun i h1 _ h3 => by omega, .inr rfl, ?_⟩, fun h => absurd (.inl rfl) h⟩
    rw [encodeScan, Memory.read_write_same, marker, BitVec.toNat_ofNat, Nat.mod_eq_of_lt (by omega)]
  | succ k ih =>
    intro j hj
    unfold encodeScan
    by_cases h0 : m.read (blk base (k + 1)) = 0x00#8
    · rw [if_pos h0]
      have hmk : IsMarker m base n (k + 1) := .inr ⟨by omega, hk, h0⟩
      have hsame : ∀ i, i ≤ k → (IsMarker (m.write (blk base (k + 1)) (marker (k + 1) next)) base n i ↔ IsMarker m base n i) := by
        intro i hi
        unfold IsMarker
        rw [Memory.read_write_other _ _ (blk_ne (by omega) (by omega) (by omega))]
      by_cases hjk : j ≤ k
      · obtain ⟨h1, h2⟩ := ih (m.write (blk base (k + 1)) (marker (k + 1) next)) (next := k + 1) (by omega) (by omega) (by omega) j hjk
        rw [hsame j hjk] at h1 h2
        refine ⟨fun hm => ?_, fun hm => ?_⟩
        · obtain ⟨z, hz1, hz2, hz3, hz4, hz5, hz6⟩ := h1 hm
          refine ⟨z, hz1, by omega, ?_, fun i hi1 hi2 hi3 => ?_, by omega, hz6⟩
          · rcases hz3 with rfl | hz3
            · exact .inr hmk
            · rcases hz5 with hz5 | rfl
              · exact .inr ((hsame z hz5).1 hz3)
              · exact .inr hmk
          · rw [← hsame i (by omega)]
            exact hz4 i hi1 hi2 (by omega)
        · rw [h2 hm, Memory.read_write_other _ _ (blk_ne (by omega) (by omega) (by omega))]
      · obtain rfl : j = k + 1 := by omega
        refine ⟨fun _ => ⟨next, hkn, le_refl _, .inl rfl, fun i h1 _ h3 => by omega, .inr rfl, ?_⟩, fun hm => absurd hmk hm⟩
        rw [encodeScan_above base _ _ (Nat.lt_succ_self k) hk (by omega), Memory.read_write_same, marker, BitVec.toNat_ofNat,
          Nat.mod_eq_of_lt (by omega)]
    · rw [if_neg h0]
      have hmk : ¬ IsMarker m base n (k + 1) := by
        rintro (h | ⟨-, -, h⟩)
        · omega
        · exact h0 h
      by_cases hjk : j ≤ k
      · obtain ⟨h1, h2⟩ := ih m (next := next) (by omega) (by omega) hnext j hjk
        refine ⟨fun hm => ?_, h2⟩
        obtain ⟨z, hz1, hz2, hz3, hz4, hz5, hz6⟩ := h1 hm
        refine ⟨z, hz1, hz2, hz3, fun i hi1 hi2 hi3 => ?_, by omega, hz6⟩
        by_cases hik : i = k + 1
        · rwa [hik]
        · exact hz4 i hi1 hi2 (by omega)
      · obtain rfl : j = k + 1 := by omega
        exact ⟨fun hm => absurd hm hmk, fun _ => encodeScan_above base _ _ (Nat.lt_succ_self k) hk (by omega)⟩

/-- The markers of a payload do not depend on the byte at the overhead position (41_encoder R87). -/
theorem isMarker_write_overhead (m : Memory) (base : Word) {n : Nat} (hn : n ≤ 254) (v : Byte) (k : Nat) :
    IsMarker (m.write (blk base 0) v) base n k ↔ IsMarker m base n k := by
  unfold IsMarker
  by_cases hk : 1 ≤ k ∧ k ≤ n
  · rw [Memory.read_write_other _ _ (blk_ne (by omega) (by omega) (by omega))]
  · constructor
    · rintro (h | h)
      · exact .inl h
      · exact absurd ⟨h.1, h.2.1⟩ hk
    · rintro (h | h)
      · exact .inl h
      · exact absurd ⟨h.1, h.2.1⟩ hk

/-- ENCODE's memory holds the encoded block of 41_encoder R85, whatever the overhead byte held. -/
theorem encodeMemory_encodedBlock (base : Word) {n : Nat} (m : Memory) (hn : n ≤ 254) :
    EncodedBlock m (encodeMemory base n m) base n := by
  intro k hk
  have hsame := isMarker_write_overhead m base hn 0x00#8
  obtain ⟨h1, h2⟩ := encodeScan_spec base (m.write (blk base 0) 0x00#8) hn (le_refl n) (Nat.lt_succ_self n) (le_refl _) k hk
  rw [hsame] at h1 h2
  refine ⟨fun hm => ?_, fun hm => ?_⟩
  · obtain ⟨z, hz1, hz2, hz3, hz4, hz5, hz6⟩ := h1 hm
    refine ⟨z, ⟨hz1, by rwa [hsame] at hz3, hz2, fun i hi1 hi2 => ?_⟩, hz6⟩
    rw [← hsame]
    exact hz4 i hi1 hi2 (by omega)
  · have hk0 : k ≠ 0 := fun h => hm (.inl h)
    rw [encodeMemory, h2 hm, Memory.read_write_other _ _ (blk_ne (by omega) (by omega) hk0)]

/-- ENCODE touches its region only (20_memory R46). -/
theorem encodeMemory_untouched (base : Word) (n : Nat) (m : Memory) :
    UntouchedOutside m (encodeMemory base n m) base (n + 1) :=
  (UntouchedOutside.write m (by omega) _).trans (encodeScan_untouched base n (n + 1) _)

theorem encodeScan_wf (base : Word) (k next : Nat) {m : Memory} (h : m.wf = true) : (encodeScan base k next m).wf = true := by
  induction k generalizing next m with
  | zero => exact Memory.wf_write _ _ h
  | succ k ih =>
    unfold encodeScan
    split
    · exact ih _ (Memory.wf_write _ _ h)
    · exact ih _ h

theorem encodeMemory_wf (base : Word) (n : Nat) {m : Memory} (h : m.wf = true) : (encodeMemory base n m).wf = true :=
  encodeScan_wf base n _ (Memory.wf_write _ _ h)

/-- Everything ENCODE can do: fail its size check, stick on its admission check, or run its body (40_dispatch R75). -/
theorem execEncode_cases (s : State) :
    (¬ s.size.toNat ≤ 254 ∧ execEncode s = .next (raiseError .sizeRange s)) ∨
    (s.size.toNat ≤ 254 ∧ ¬ AllAdmitted s.platform (s.addr + s.offset - 1#32) (s.size.toNat + 1) ∧
      execEncode s = .next (stick .encode (capture s) s)) ∨
    (s.size.toNat ≤ 254 ∧ AllAdmitted s.platform (s.addr + s.offset - 1#32) (s.size.toNat + 1) ∧
      execEncode s = .next (encodeBody (capture s) s)) := by
  unfold execEncode
  split <;> rename_i h
  · exact .inl ⟨fun hle => by simp [checkCommand_badSize, (sizeOk_encode (capture s)).2 hle] at h, rfl⟩
  · rw [checkCommand_inadmissible, sizeOk_encode] at h
    exact .inr (.inl ⟨h.1, h.2, rfl⟩)
  · rw [checkCommand_run, sizeOk_encode] at h
    exact .inr (.inr ⟨h.1, h.2, rfl⟩)

/-- ENCODE's RESULT as the register holds it (41_encoder R88). -/
theorem encodeResult_setWidth {ops : Operands} (h : ops.size.toNat ≤ 254) :
    (encodeResult ops).setWidth 32 = ops.size + 1#32 := by
  apply BitVec.eq_of_toNat_eq
  simp [encodeResult, BitVec.toNat_add]; omega

theorem execEncode_run {s : State} (hn : s.size.toNat ≤ 254)
    (ha : AllAdmitted s.platform (s.addr + s.offset - 1#32) (s.size.toNat + 1)) :
    execEncode s = .next (encodeBody (capture s) s) := by
  rcases execEncode_cases s with ⟨h, -⟩ | ⟨-, h, -⟩ | ⟨-, -, h⟩
  · exact absurd hn h
  · exact absurd ha h
  · exact h

end Sys2Proof.Machine
end

