-- ==== Sys2Proof/Laws/Engine.lean ====
section
/-! SUPPORT. What a CMD write starts, what one engine step can do, and that undisturbed engine steps reach what the whole command does. -/

namespace Sys2Proof.Machine

/-- The work a legal command word starts. -/
theorem workOf_ok {w : Word} {i : Instr} (h : decodeCmd w = .ok i) (ops : Operands) (p : Platform) :
    (checkCommand i ops p = .badSize ∧ workOf w ops p = .failing .sizeRange) ∨
    (checkCommand i ops p = .inadmissible ∧ workOf w ops p = .stuck i ops) ∨
    (checkCommand i ops p = .run ∧
      ((i = .encode ∧ workOf w ops p = .encode ops .none .start) ∨
       (i = .decode ∧ workOf w ops p = .decode ops .none (.read 0)) ∨
       (i = .overhead ∧ workOf w ops p = .overhead))) := by
  unfold workOf
  rw [h]
  rcases hc : checkCommand i ops p with _ | _ | _
  · exact .inl ⟨rfl, by simp [hc]⟩
  · exact .inr (.inl ⟨rfl, by simp [hc]⟩)
  · refine .inr (.inr ⟨rfl, ?_⟩)
    cases i <;> simp [hc]

/-- The work an illegal command word starts (60_exceptions R129). -/
theorem workOf_error {w : Word} {e : DecodeError} (h : decodeCmd w = .error e) (ops : Operands) (p : Platform) :
    workOf w ops p = .failing .illegalCmd := by
  simp [workOf, h]

/-- The work of any command word agrees with its checks. -/
theorem workOf_Ok (w : Word) (ops : Operands) (p : Platform) : (workOf w ops p).Ok p := by
  rcases h : decodeCmd w with e | i
  · simp [workOf, h, Work.Ok]
  · rcases workOf_ok h ops p with ⟨-, he⟩ | ⟨hc, he⟩ | ⟨hc, ⟨rfl, he⟩ | ⟨rfl, he⟩ | ⟨rfl, he⟩⟩ <;> rw [he]
    · trivial
    · exact hc
    · exact ⟨hc, trivial⟩
    · exact ⟨hc, Nat.zero_le _⟩
    · trivial

/-- Everything one step of an ENCODE that no outside agent has written into can do (41_encoder R86). -/
theorem encodeStep_cases (ops : Operands) {race : Race} (hr : race ≠ .write) (phase : EncodePhase) (s : State) :
    (phase = .start ∧ encodeStep ops race phase s =
      { s with mem := s.mem.write (blk (encodeBase ops) 0) 0x00#8,
               engine := .busy (.encode ops race (.scan ops.size.toNat (ops.size.toNat + 1))) }) ∨
    (∃ k, phase = .scan k 0 ∧
      encodeStep ops race phase s = complete (encodeResult ops) (settleRace race (encodeRegion ops) s)) ∨
    (∃ k next, phase = .scan k next ∧ next ≠ 0 ∧ s.mem.read (blk (encodeBase ops) k) = 0x00#8 ∧
      encodeStep ops race phase s = { s with engine := .busy (.encode ops race (.mark k next)) }) ∨
    (∃ k next, phase = .scan k next ∧ next ≠ 0 ∧ s.mem.read (blk (encodeBase ops) k) ≠ 0x00#8 ∧
      encodeStep ops race phase s = { s with engine := .busy (.encode ops race (.scan (k - 1) next)) }) ∨
    (∃ k next, phase = .mark k next ∧ encodeStep ops race phase s =
      { s with mem := s.mem.write (blk (encodeBase ops) k) (marker k next),
               engine := .busy (.encode ops race (.scan (k - 1) k)) }) := by
  rcases phase with _ | ⟨k, next⟩ | ⟨k, next⟩
  · exact .inl ⟨rfl, by simp [encodeStep, hr]⟩
  · by_cases hn : next = 0
    · subst hn
      exact .inr (.inl ⟨k, rfl, by simp [encodeStep, hr]⟩)
    · by_cases hz : s.mem.read (blk (encodeBase ops) k) = 0x00#8
      · exact .inr (.inr (.inl ⟨k, next, rfl, hn, hz, by simp [encodeStep, hr, hn, hz]⟩))
      · exact .inr (.inr (.inr (.inl ⟨k, next, rfl, hn, hz, by simp [encodeStep, hr, hn, hz]⟩)))
  · exact .inr (.inr (.inr (.inr ⟨k, next, rfl, by simp [encodeStep, hr]⟩)))

/-- Everything one step of a DECODE that no outside agent has written into can do (42_decoder R101). -/
theorem decodeStep_cases (ops : Operands) {race : Race} (hr : race ≠ .write) (phase : DecodePhase) (s : State) :
    (∃ c, phase = .read c ∧ c < ops.size.toNat ∧ decodeStep ops race phase s =
      { s with engine := .busy (.decode ops race (.clear c (s.mem.read (blk (decodeBase ops) c)))) }) ∨
    (∃ c, phase = .read c ∧ ¬ c < ops.size.toNat ∧
      decodeStep ops race phase s = complete (decodeResult ops) (settleRace race (decodeRegion ops) s)) ∨
    (∃ c, phase = .clear c 0x00#8 ∧ decodeStep ops race phase s =
      hang ops (settleRace race (decodeRegion ops) { s with mem := s.mem.write (blk (decodeBase ops) c) 0x00#8 })) ∨
    (∃ c v, phase = .clear c v ∧ v ≠ 0x00#8 ∧ decodeStep ops race phase s =
      { s with mem := s.mem.write (blk (decodeBase ops) c) 0x00#8,
               engine := .busy (.decode ops race (.read (c + v.toNat))) }) := by
  rcases phase with c | ⟨c, v⟩
  · by_cases hc : c < ops.size.toNat
    · exact .inl ⟨c, rfl, hc, by simp [decodeStep, hr, hc]⟩
    · exact .inr (.inl ⟨c, rfl, hc, by simp [decodeStep, hr, hc]⟩)
  · by_cases hv : v = 0x00#8
    · subst hv
      exact .inr (.inr (.inl ⟨c, rfl, by simp [decodeStep, hr]⟩))
    · exact .inr (.inr (.inr ⟨c, v, rfl, hv, by simp [decodeStep, hr, hv]⟩))

/-- A step of an ENCODE that an outside agent has written into completes it with a redrawn region (20_memory R48). -/
theorem encodeStep_write (ops : Operands) (phase : EncodePhase) (s : State) :
    encodeStep ops .write phase s = complete (encodeResult ops) (redrawRegion (encodeRegion ops) s) := by
  simp [encodeStep]

/-- A write-raced DECODE that has read its zero code byte hangs (42_decoder R104). -/
@[simp] theorem racedDecodeHangs_zeroCode (size c d : Nat) : racedDecodeHangs size (.clear c 0x00#8) d = true := by
  simp [racedDecodeHangs]

/-- A write-raced DECODE whose cursor has reached the end does not hang (42_decoder R101). -/
theorem racedDecodeHangs_atEnd {size c : Nat} (h : size ≤ c) (d : Nat) : racedDecodeHangs size (.read c) d = false := by
  simp [racedDecodeHangs, Nat.not_lt.2 h]

/-- A write-raced DECODE whose jump already read leads to the end does not hang (42_decoder R101). -/
theorem racedDecodeHangs_jumpToEnd {size c : Nat} {v : Byte} (hv : v ≠ 0x00#8) (h : size ≤ c + v.toNat) (d : Nat) :
    racedDecodeHangs size (.clear c v) d = false := by
  simp [racedDecodeHangs, hv, Nat.not_lt.2 h]

/-- A step of a DECODE that an outside agent has written into ends it, with a redrawn region, by a hang or a completion
(20_memory R48). -/
theorem decodeStep_write_eq (ops : Operands) (phase : DecodePhase) (s : State) :
    decodeStep ops .write phase s =
      if racedDecodeHangs ops.size.toNat phase s.draws then hang ops (redrawRegion (decodeRegion ops) s)
      else complete (decodeResult ops) (redrawRegion (decodeRegion ops) s) := by
  simp [decodeStep]

theorem decodeStep_write (ops : Operands) (phase : DecodePhase) (s : State) :
    decodeStep ops .write phase s = hang ops (redrawRegion (decodeRegion ops) s) ∨
    decodeStep ops .write phase s = complete (decodeResult ops) (redrawRegion (decodeRegion ops) s) := by
  rw [decodeStep_write_eq]
  split
  · exact .inl rfl
  · exact .inr rfl

/-- What no engine step changes. -/
theorem engineStep_keeps (s : State) :
    (engineStep s).addr = s.addr ∧ (engineStep s).offset = s.offset ∧ (engineStep s).size = s.size ∧
    (engineStep s).platform = s.platform ∧ (engineStep s).events = s.events ∧ (engineStep s).hostReads = s.hostReads ∧
    (engineStep s).outsideReads = s.outsideReads := by
  unfold engineStep
  split
  · simp
  · simp
  · simp
  · simp
  · simp
  · rename_i ops race phase _
    by_cases hr : race = .write
    · subst hr; simp [encodeStep_write]
    · rcases encodeStep_cases ops hr phase s with ⟨-, h⟩ | ⟨_, -, h⟩ | ⟨_, _, -, -, -, h⟩ | ⟨_, _, -, -, -, h⟩ | ⟨_, _, -, h⟩ <;>
        rw [h] <;> simp
  · rename_i ops race phase _
    by_cases hr : race = .write
    · subst hr
      rcases decodeStep_write ops phase s with h | h <;> rw [h] <;> simp
    · rcases decodeStep_cases ops hr phase s with ⟨_, -, -, h⟩ | ⟨_, -, -, h⟩ | ⟨_, -, h⟩ | ⟨_, _, -, -, h⟩ <;> rw [h] <;> simp

/-- An engine step with no work in progress that can go on changes nothing. -/
theorem engineStep_of_neverCompletes {s : State} (h : s.NeverCompletes) : engineStep s = s := by
  rcases h with ⟨i, ops, h⟩ | ⟨ops, h⟩ <;> simp [engineStep, h]

/-- Steps of the engine, one after another. -/
def engineSteps : Nat → State → State
  | 0, s => s
  | k + 1, s => engineSteps k (engineStep s)

theorem engineSteps_add (j k : Nat) (s : State) : engineSteps (j + k) s = engineSteps k (engineSteps j s) := by
  induction j generalizing s with
  | zero => simp [engineSteps]
  | succ j ih => rw [Nat.succ_add]; exact ih _

/-- From the scan at `k`, undisturbed engine steps reach the completion with the memory of `encodeScan`, in at most `2 k + 3` of them,
provided the overhead position holds the synthetic 0x00. -/
theorem engineSteps_encodeScan (ops : Operands) (hn : ops.size.toNat ≤ 254) {k next : Nat} (hk : k ≤ ops.size.toNat)
    (hnext : next ≠ 0) (s : State) (h0 : s.mem.read (blk (encodeBase ops) 0) = 0x00#8) :
    ∃ j, j ≤ 2 * k + 3 ∧
      engineSteps j { s with engine := .busy (.encode ops .none (.scan k next)) } =
        complete (encodeResult ops) { s with mem := encodeScan (encodeBase ops) k next s.mem } := by
  induction k generalizing next s with
  | zero =>
    refine ⟨3, by omega, ?_⟩
    simp [engineSteps, engineStep, encodeStep, hnext, h0, encodeScan, complete]
  | succ k ih =>
    unfold encodeScan
    by_cases hz : s.mem.read (blk (encodeBase ops) (k + 1)) = 0x00#8
    · rw [if_pos hz]
      have h0' : (s.mem.write (blk (encodeBase ops) (k + 1)) (marker (k + 1) next)).read (blk (encodeBase ops) 0) = 0x00#8 := by
        rw [Memory.read_write_other _ _ (blk_ne (by omega) (by omega) (by omega)), h0]
      obtain ⟨j, hj, he⟩ := ih (by omega) (Nat.succ_ne_zero k)
        { s with mem := s.mem.write (blk (encodeBase ops) (k + 1)) (marker (k + 1) next) } h0'
      refine ⟨j + 1 + 1, by omega, ?_⟩
      rw [← he]
      simp [engineSteps, engineStep, encodeStep, hnext, hz]
    · rw [if_neg hz]
      obtain ⟨j, hj, he⟩ := ih (by omega) hnext s h0
      refine ⟨j + 1, by omega, ?_⟩
      rw [← he]
      simp [engineSteps, engineStep, encodeStep, hnext, hz]

/-- Undisturbed engine steps of ENCODE reach its whole body. -/
theorem engineSteps_encodeBody (ops : Operands) (hn : ops.size.toNat ≤ 254) (s : State) :
    ∃ j, j ≤ 2 * ops.size.toNat + 4 ∧
      engineSteps j { s with engine := .busy (.encode ops .none .start) } = encodeBody ops s := by
  obtain ⟨j, hj, he⟩ := engineSteps_encodeScan ops hn (le_refl _) (Nat.succ_ne_zero ops.size.toNat)
    { s with mem := s.mem.write (blk (encodeBase ops) 0) 0x00#8 } (by simp)
  refine ⟨j + 1, by omega, ?_⟩
  rw [encodeBody, encodeMemory, ← he]
  simp [engineSteps, engineStep, encodeStep]

/-- From the cursor `c`, undisturbed engine steps of DECODE reach what `decodeWalk` says, in at most two per jump and one more. -/
theorem engineSteps_decodeWalk (ops : Operands) (fuel c : Nat) (hf : ops.size.toNat ≤ fuel + c) (s : State) :
    ∃ j, j ≤ 2 * fuel + 1 ∧
      engineSteps j { s with engine := .busy (.decode ops .none (.read c)) } =
        match decodeWalk (decodeBase ops) ops.size.toNat fuel c s.mem with
        | .ended m => complete (decodeResult ops) { s with mem := m }
        | .zeroCode m => hang ops { s with mem := m } := by
  induction fuel generalizing c s with
  | zero =>
    refine ⟨1, by omega, ?_⟩
    have hc : ¬ c < ops.size.toNat := by omega
    simp [engineSteps, engineStep, decodeStep, hc, decodeWalk, complete]
  | succ fuel ih =>
    unfold decodeWalk
    by_cases hc : c < ops.size.toNat
    · by_cases hz : s.mem.read (blk (decodeBase ops) c) = 0x00#8
      · refine ⟨2, by omega, ?_⟩
        simp [engineSteps, engineStep, decodeStep, hc, hz, hang]
      · have hpos : (s.mem.read (blk (decodeBase ops) c)).toNat ≠ 0 := fun h => hz (BitVec.eq_of_toNat_eq (by simpa using h))
        obtain ⟨j, hj, he⟩ := ih (c + (s.mem.read (blk (decodeBase ops) c)).toNat) (by omega)
          { s with mem := s.mem.write (blk (decodeBase ops) c) 0x00#8 }
        refine ⟨j + 1 + 1, by omega, ?_⟩
        simp only [hc, hz, if_true, if_false]
        rw [← he]
        simp [engineSteps, engineStep, decodeStep, hc, hz]
    · refine ⟨1, by omega, ?_⟩
      simp [engineSteps, engineStep, decodeStep, hc, complete]

end Sys2Proof.Machine
end

