-- ==== Sys2Proof/Laws/Flags.lean ====
section
/-! SUPPORT. The STATUS words of the completions and their fields (10_state R24). -/

namespace Sys2Proof.Machine

/-- STATUS after a SizeRange failure (60_exceptions R126). -/
theorem statusError_sizeRange : statusError .sizeRange = 0x00000007#32 := by decide

/-- STATUS after an IllegalCmd failure (60_exceptions R126). -/
theorem statusError_illegalCmd : statusError .illegalCmd = 0x0000000B#32 := by decide

@[simp] theorem statusDone_success : statusDone statusSuccess = true := by decide

@[simp] theorem statusDone_error (c : Cause) : statusDone (statusError c) = true := by cases c <;> decide

@[simp] theorem statusErr_success : statusErr statusSuccess = false := by decide

@[simp] theorem statusErr_error (c : Cause) : statusErr (statusError c) = true := by cases c <;> decide

@[simp] theorem statusCause_success : statusCause statusSuccess = 0b00#2 := by decide

@[simp] theorem statusCause_error (c : Cause) : statusCause (statusError c) = causeCode c := by cases c <;> decide

end Sys2Proof.Machine
end

