-- ==== Sys2Proof/Laws/Outside.lean ====
section
/-! SUPPORT. What an outside access can do: an ordinary access touches memory or a reply, a racing one marks or redraws. -/

namespace Sys2Proof.Machine

@[simp] theorem Race.after_ne_none (r : Race) (a : OutsideAccess) : r.after a ≠ .none := by
  cases r <;> cases a <;> simp [Race.after]

@[simp] theorem Race.after_write (r : Race) (x : Word) (v : Byte) : r.after (.write x v) = .write := by
  cases r <;> rfl

/-- A read leaves a write-raced command write-raced and marks any other as read-raced (20_memory R48). -/
theorem Race.after_read (r : Race) (x : Word) : r.after (.read x) = if r = .write then .write else .read := by
  cases r <;> rfl

/-- A raced command's region is redrawn at its end, whatever the race was. -/
theorem settleRace_raced {race : Race} (h : race ≠ .none) (r : Region) (s : State) : settleRace race r s = redrawRegion r s := by
  cases race with
  | none => exact absurd rfl h
  | read => rfl
  | write => rfl

/-- A racing access to the region of a stuck or HUNG command: the reply, then the region redrawn (log entry 9). -/
theorem racingAccess_of_noEnd {s : State} {r : Region} (a : OutsideAccess)
    (h : (∃ i ops, s.engine = .busy (.stuck i ops) ∧ r = commandRegion i ops) ∨ ∃ ops, s.engine = .hung ops ∧ r = decodeRegion ops) :
    racingAccess a s = redrawRegion r (racingReply a s) := by
  rcases h with ⟨i, ops, h, rfl⟩ | ⟨ops, h, rfl⟩ <;> simp [racingAccess, h]

/-- What no outside access changes. -/
theorem plainAccess_keeps (a : OutsideAccess) (s : State) :
    (plainAccess a s).addr = s.addr ∧ (plainAccess a s).offset = s.offset ∧ (plainAccess a s).size = s.size ∧
    (plainAccess a s).result = s.result ∧ (plainAccess a s).status = s.status ∧ (plainAccess a s).engine = s.engine ∧
    (plainAccess a s).platform = s.platform ∧ (plainAccess a s).events = s.events ∧
    (plainAccess a s).hostReads = s.hostReads ∧ (plainAccess a s).draws = s.draws := by
  cases a <;> simp [plainAccess]

/-- What no racing access changes. -/
theorem racingAccess_keeps (a : OutsideAccess) (s : State) :
    (racingAccess a s).addr = s.addr ∧ (racingAccess a s).offset = s.offset ∧ (racingAccess a s).size = s.size ∧
    (racingAccess a s).result = s.result ∧ (racingAccess a s).status = s.status ∧
    (racingAccess a s).platform = s.platform ∧ (racingAccess a s).events = s.events ∧
    (racingAccess a s).hostReads = s.hostReads := by
  unfold racingAccess
  split <;> cases a <;> simp [racingReply]

/-- Everything a racing access can do to the engine and to memory: mark an ENCODE or a DECODE in progress, redraw the region of a
stuck or hung command, or nothing where there is no region. -/
theorem racingAccess_cases (a : OutsideAccess) (s : State) :
    (∃ ops race phase, s.engine = .busy (.encode ops race phase) ∧
      (racingAccess a s).engine = .busy (.encode ops (race.after a) phase) ∧ (racingAccess a s).mem = s.mem) ∨
    (∃ ops race phase, s.engine = .busy (.decode ops race phase) ∧
      (racingAccess a s).engine = .busy (.decode ops (race.after a) phase) ∧ (racingAccess a s).mem = s.mem) ∨
    ((racingAccess a s).engine = s.engine ∧ ∃ (r : Region) (d : Nat), (racingAccess a s).mem = drawBytes r.base d r.len s.mem) := by
  unfold racingAccess
  split
  · rename_i ops race phase h
    exact .inl ⟨ops, race, phase, h, by cases a <;> rfl, by cases a <;> rfl⟩
  · rename_i ops race phase h
    exact .inr (.inl ⟨ops, race, phase, h, by cases a <;> rfl, by cases a <;> rfl⟩)
  · exact .inr (.inr ⟨by cases a <;> rfl, _, (racingReply a s).draws, by cases a <;> rfl⟩)
  · exact .inr (.inr ⟨by cases a <;> rfl, _, (racingReply a s).draws, by cases a <;> rfl⟩)
  · exact .inr (.inr ⟨rfl, { base := 0#32, len := 0 }, 0, rfl⟩)
  · exact .inr (.inr ⟨rfl, { base := 0#32, len := 0 }, 0, rfl⟩)
  · exact .inr (.inr ⟨rfl, { base := 0#32, len := 0 }, 0, rfl⟩)

end Sys2Proof.Machine
end

