-- ==== Sys2Proof/WellFormed.lean ====
section
/-! DEFINITION. What it takes for a command, a platform and a host transaction to be well formed. -/

namespace Sys2Proof

/-- A command has no field that could be out of range: every command is well formed (30_encoding R64). -/
def Instr.wf : Instr → Bool
  | .encode => true
  | .decode => true
  | .overhead => true

/-- CODEC_BASE is a multiple of 32 (00_scope R7). -/
def Platform.wf (p : Platform) : Bool := p.codecBase.toNat % 32 = 0

namespace Machine

/-- A host transaction in the syntax of 30_encoding R66: a register access is 32 bits wide, aligned, and in the window
(10_state R18); a byte access is not in the window (20_memory R54). -/
def Transaction.wf (p : Platform) : Transaction → Bool
  | .regWrite width offset _ => width = .word && offset.toNat % 4 = 0 && offset.toNat < 32
  | .regRead width offset => width = .word && offset.toNat % 4 = 0 && offset.toNat < 32
  | .storeByte address _ => 32 ≤ (address - p.codecBase).toNat
  | .loadByte address => 32 ≤ (address - p.codecBase).toNat

end Machine

end Sys2Proof
end

