-- ==== Sys2Proof/Laws/PerInstr.lean ====
section
/-! SUPPORT. What holds of every command as syntax, one lemma per constructor: it is well formed, its word has RSV = 0 and OP ≠ 0b00, and the decoder reads the command back from it (30_encoding R57 to R62). -/

namespace Sys2Proof.Laws.Encoding

/-- A command's word is a legal command word (30_encoding R62), and it is that command's (30_encoding R59 to R61). -/
def Statement (i : Instr) : Prop :=
  i.wf = true ∧ rsvField (encodeCmd i) = 0#30 ∧ opField (encodeCmd i) ≠ 0b00#2 ∧ decodeCmd (encodeCmd i) = .ok i

theorem encode : Statement .encode := ⟨rfl, rfl, by decide, rfl⟩

theorem decode : Statement .decode := ⟨rfl, rfl, by decide, rfl⟩

theorem overhead : Statement .overhead := ⟨rfl, rfl, by decide, rfl⟩

end Sys2Proof.Laws.Encoding
end

