-- ==== Sys2Proof/Laws/Step.lean ====
section
/-! SUPPORT. What a host transaction and a step can do, said once. -/

namespace Sys2Proof.Machine

theorem regAt_offsetOf (r : Reg) : regAt r.offsetOf = some r := by
  cases r <;> rfl

/-- The register window's map: an offset is a register's exactly if it is a multiple of 4 below 32 (10_state R17, R18). -/
theorem regAt_eq_some {off : Word} {r : Reg} (h : regAt off = some r) : off = r.offsetOf := by
  have hr : off = BitVec.ofNat 32 off.toNat := by simp
  unfold regAt at h
  split at h <;> cases h <;> rename_i hn <;> rw [hn] at hr <;> exact hr

theorem regAt_isSome_iff (off : Word) : (∃ r, regAt off = some r) ↔ off.toNat % 4 = 0 ∧ off.toNat < 32 := by
  constructor
  · rintro ⟨r, h⟩
    rw [regAt_eq_some h]
    cases r <;> decide
  · rintro ⟨h4, hlt⟩
    have h : off.toNat = 0 ∨ off.toNat = 4 ∨ off.toNat = 8 ∨ off.toNat = 12 ∨ off.toNat = 16 ∨ off.toNat = 20 ∨
        off.toNat = 24 ∨ off.toNat = 28 := by omega
    unfold regAt
    rcases h with h | h | h | h | h | h | h | h <;> rw [h] <;> exact ⟨_, rfl⟩

theorem touchesWindow_iff (width : Width) (off : Word) :
    touchesWindow width off = true ↔ ∃ k, k < width.bytes ∧ (off + BitVec.ofNat 32 k).toNat < 32 := by
  simp [touchesWindow]

/-- An access reaches a register exactly if it is an aligned word in the window (10_state R18). -/
theorem regOf_ok {width : Width} {off : Word} {r : Reg} (h : regOf width off = .ok r) : width = .word ∧ off = r.offsetOf := by
  unfold regOf at h
  split at h
  · rename_i hr
    cases h
    exact ⟨rfl, regAt_eq_some hr⟩
  · split at h <;> cases h

theorem regOf_word (r : Reg) : regOf .word r.offsetOf = .ok r := by
  simp [regOf, regAt_offsetOf]

/-- Any other access is refused, as a window access if it touches the window (10_state R18). -/
theorem regOf_error {width : Width} {off : Word} (h : ¬ (width = .word ∧ off.toNat % 4 = 0 ∧ off.toNat < 32)) :
    regOf width off = .error (if touchesWindow width off then .windowAccess else .noRegisterThere) := by
  unfold regOf
  split
  · rename_i r hr
    exact absurd ⟨rfl, (regAt_isSome_iff off).1 ⟨r, hr⟩⟩ h
  · split <;> rfl

/-- Everything a step that answers a next state can be. -/
inductive StepCase (s : State) : State → Prop
  | engineAlone : s.events = [] → StepCase s (engineStep s)
  | hostWaits (e : Event) (rest : List Event) : s.events = e :: rest → (∃ x, e = .host x) ∨ (∃ w, e = .issue w) →
      s.engine ≠ .idle → StepCase s (engineStep s)
  | engineEvent (rest : List Event) : s.events = .engine :: rest → StepCase s (engineStep { s with events := rest })
  | command (w : Word) (i : Instr) (rest : List Event) (t : State) : s.engine = .idle →
      s.events = .host (.regWrite .word 0x00#32 w) :: rest → decodeCmd w = .ok i →
      exec i { s with events := rest } = .next t → StepCase s t
  | illegal (w : Word) (e : DecodeError) (rest : List Event) : s.engine = .idle →
      s.events = .host (.regWrite .word 0x00#32 w) :: rest → decodeCmd w = .error e →
      StepCase s (raiseError .illegalCmd { s with events := rest })
  | regWrite (r : Reg) (v : Word) (rest : List Event) : s.engine = .idle →
      s.events = .host (.regWrite .word r.offsetOf v) :: rest → r ≠ .cmd → StepCase s (writeReg r v { s with events := rest })
  | regRead (r : Reg) (rest : List Event) : s.engine = .idle → s.events = .host (.regRead .word r.offsetOf) :: rest →
      StepCase s { s with events := rest, hostReads := readReg r s :: s.hostReads }
  | store (a : Word) (v : Byte) (rest : List Event) : s.engine = .idle → s.events = .host (.storeByte a v) :: rest →
      inWindow s.platform a = false → StepCase s { s with events := rest, mem := s.mem.write a v }
  | load (a : Word) (rest : List Event) : s.engine = .idle → s.events = .host (.loadByte a) :: rest →
      inWindow s.platform a = false → StepCase s { s with events := rest, hostReads := (s.mem.read a).setWidth 32 :: s.hostReads }
  | issue (w : Word) (rest : List Event) : s.engine = .idle → s.events = .issue w :: rest →
      StepCase s (beginCommand w { s with events := rest })
  | racing (a : OutsideAccess) (rest : List Event) : s.events = .outside a :: rest → inWindow s.platform a.address = false →
      races a s = true → StepCase s (racingAccess a { s with events := rest })
  | plain (a : OutsideAccess) (rest : List Event) : s.events = .outside a :: rest → inWindow s.platform a.address = false →
      races a s = false → StepCase s (plainAccess a { s with events := rest })
  | reset (rest : List Event) : s.events = .reset :: rest → StepCase s (resetBlock { s with events := rest })

/-- The inversion of a step: a next state comes about in one of the ways of `StepCase`. -/
theorem step_cases {s t : State} (h : step s = .next t) : StepCase s t := by
  unfold step at h
  split at h
  · rename_i he
    cases h
    exact .engineAlone he
  · rename_i e rest he
    unfold performEvent at h
    split at h
    · rename_i x
      split at h
      · rename_i hidle
        unfold hostTransaction at h
        split at h
        · rename_i width off v
          unfold hostRegWrite at h
          split at h
          · cases h
          · rename_i hr
            obtain ⟨rfl, rfl⟩ := regOf_ok hr
            unfold commandWrite at h
            split at h
            · rename_i i hi
              exact .command v i rest t hidle he hi h
            · rename_i e' hi
              cases h
              exact .illegal v e' rest hidle he hi
          · rename_i r hne hr
            obtain ⟨rfl, rfl⟩ := regOf_ok hr
            cases h
            exact .regWrite r v rest hidle he (fun e => hne e)
        · rename_i width off
          unfold hostRegRead at h
          split at h
          · cases h
          · rename_i r hr
            obtain ⟨rfl, rfl⟩ := regOf_ok hr
            cases h
            exact .regRead r rest hidle he
        · rename_i a v
          unfold hostStore at h
          split at h
          · cases h
          · rename_i hw
            cases h
            exact .store a v rest hidle he (by simpa using hw)
        · rename_i a
          unfold hostLoad at h
          split at h
          · cases h
          · rename_i hw
            cases h
            exact .load a rest hidle he (by simpa using hw)
      · rename_i hbusy
        cases h
        exact .hostWaits _ rest he (.inl ⟨x, rfl⟩) hbusy
    · rename_i w
      split at h
      · rename_i hidle
        cases h
        exact .issue w rest hidle he
      · rename_i hbusy
        cases h
        exact .hostWaits _ rest he (.inr ⟨w, rfl⟩) hbusy
    · cases h
      exact .engineEvent rest he
    · rename_i a
      unfold outsideAccess at h
      split at h
      · cases h
      · rename_i hw
        split at h
        · rename_i hr
          cases h
          exact .racing a rest he (by simpa using hw) hr
        · rename_i hr
          cases h
          exact .plain a rest he (by simpa using hw) (by simpa [races] using hr)
    · cases h
      exact .reset rest he

/-- With the engine IDLE, the host's next transaction is what the step does (40_dispatch R69). -/
theorem step_host {s : State} {x : Transaction} {rest : List Event} (hi : s.engine = .idle) (he : s.events = .host x :: rest) :
    step s = hostTransaction x { s with events := rest } := by
  simp [step, he, performEvent, hi]

/-- With the engine IDLE, a CMD write is what the step does (40_dispatch R69). -/
theorem step_commandWrite {s : State} {w : Word} {rest : List Event} (hi : s.engine = .idle)
    (he : s.events = .host (.regWrite .word 0x00#32 w) :: rest) : step s = commandWrite w { s with events := rest } := by
  rw [step_host hi he]; rfl

/-- An outside access next is what the step does, whatever the engine is doing (20_memory R48). -/
theorem step_outside {s : State} {a : OutsideAccess} {rest : List Event} (he : s.events = .outside a :: rest) :
    step s = outsideAccess a { s with events := rest } := by
  simp [step, he, performEvent]

/-- An outside access that races the command in progress. -/
theorem step_racing {s : State} {a : OutsideAccess} {rest : List Event} (he : s.events = .outside a :: rest)
    (hw : inWindow s.platform a.address = false) (hr : races a s = true) :
    step s = .next (racingAccess a { s with events := rest }) := by
  rw [step_outside he]
  simp only [outsideAccess, hw]
  rw [if_neg (by simp), if_pos (by exact hr)]

/-- A step that answers a next state is the first of a run. -/
theorem core_run_next {k : Nat} {s s' : State} (h : step s = .next s') :
    Host.Core.run core (k + 1) s = Host.Core.run core k s' := by
  have run_succ : ∀ (M : Host.Core) (s s' : M.State), M.step s = .next s' → M.run (k + 1) s = M.run k s' := by
    intro M s s' h
    simp only [Host.Core.run, h]
  exact run_succ core s s' h

/-- With no event, a run is the engine's steps. -/
theorem core_run_engineSteps (k : Nat) {s : State} (h : s.events = []) :
    Host.Core.run core k s = .next (engineSteps k s) := by
  induction k generalizing s with
  | zero => rfl
  | succ k ih =>
    rw [core_run_next (show step s = .next (engineStep s) by simp [step, h])]
    exact ih ((engineStep_keeps s).2.2.2.2.1.trans h)

/-- Everything a command can do: answer a next state whose operand registers, parameters and own fields are as before. -/
theorem exec_cases (i : Instr) (s : State) :
    exec i s = .next (raiseError .sizeRange s) ∧ checkCommand i (capture s) s.platform = .badSize ∨
    exec i s = .next (stick i (capture s) s) ∧ checkCommand i (capture s) s.platform = .inadmissible ∨
    (∃ r m, exec i s = .next (complete r { s with mem := m }) ∧ (s.mem.wf = true → m.wf = true)) ∨
    (∃ m, exec i s = .next (hang (capture s) { s with mem := m }) ∧ i = .decode ∧ (s.mem.wf = true → m.wf = true) ∧
      checkCommand .decode (capture s) s.platform = .run) := by
  cases i
  · show execEncode s = _ ∧ _ ∨ execEncode s = _ ∧ _ ∨ (∃ r m, execEncode s = _ ∧ _) ∨ (∃ m, execEncode s = _ ∧ _)
    unfold execEncode
    split <;> rename_i h
    · exact .inl ⟨rfl, h⟩
    · exact .inr (.inl ⟨rfl, h⟩)
    · exact .inr (.inr (.inl ⟨_, _, rfl, encodeMemory_wf _ _⟩))
  · show execDecode s = _ ∧ _ ∨ execDecode s = _ ∧ _ ∨ (∃ r m, execDecode s = _ ∧ _) ∨ (∃ m, execDecode s = _ ∧ _)
    unfold execDecode
    split <;> rename_i h
    · exact .inl ⟨rfl, h⟩
    · exact .inr (.inl ⟨rfl, h⟩)
    · obtain ⟨m, -, -, hw, ⟨-, he⟩ | ⟨-, he⟩⟩ := decodeBody_cases (capture s) s <;> rw [he]
      · exact .inr (.inr (.inl ⟨_, m, rfl, hw⟩))
      · exact .inr (.inr (.inr ⟨m, rfl, rfl, hw, h⟩))
  · exact .inr (.inr (.inl ⟨overheadResult, s.mem, rfl, id⟩))

end Sys2Proof.Machine
end

