-- ==== Sys2Proof/Tests/Slice0.lean ====
section
/-! SUPPORT. The model's own tests: ill-formed terms the checks refuse, the command words written out from the spec, small vectors of 95_test_vectors, and one witness per statement that has hypotheses. -/

namespace Sys2Proof.Tests

open Sys2Proof.Machine

/-! ### Well-formedness -/

theorem test_every_command_is_well_formed : Instr.encode.wf = true ∧ Instr.decode.wf = true ∧ Instr.overhead.wf = true := by decide

/-- CODEC_BASE must be a multiple of 32 (00_scope R7). -/
theorem test_codecBase_not_a_multiple_of_32 : Platform.wf { codecBase := 0x40000010#32, buffer := [] } = false := by decide

theorem test_reset_platform_is_well_formed : State.reset.platform.wf = true := by decide

/-- The accesses of G-6 and a straddling one are no transactions (10_state R18); an aligned word access is. -/
theorem test_register_accesses_well_formed :
    Transaction.wf State.reset.platform (.regRead .byte 0x10#32) = false ∧
    Transaction.wf State.reset.platform (.regRead .word 0x02#32) = false ∧
    Transaction.wf State.reset.platform (.regWrite .half 0x04#32 0#32) = false ∧
    Transaction.wf State.reset.platform (.regWrite .word 0x20#32 0#32) = false ∧
    Transaction.wf State.reset.platform (.regWrite .word 0x1C#32 0#32) = true := by decide

/-- A byte access in the register window is no transaction (20_memory R54). -/
theorem test_byte_accesses_well_formed :
    Transaction.wf State.reset.platform (.loadByte 0x40000010#32) = false ∧
    Transaction.wf State.reset.platform (.storeByte 0x4000001F#32 0x00#8) = false ∧
    Transaction.wf State.reset.platform (.storeByte 0x40000020#32 0x00#8) = true := by decide

/-! ### Command words -/

/-- The patterns of 30_encoding R59 to R61, from bit 31 down to bit 0. -/
theorem test_decode_written_out_words :
    decodeCmd 0b00000000000000000000000000000001#32 = .ok .encode ∧
    decodeCmd 0b00000000000000000000000000000010#32 = .ok .decode ∧
    decodeCmd 0b00000000000000000000000000000011#32 = .ok .overhead := ⟨rfl, rfl, rfl⟩

/-- The words of X-1 to X-5. -/
theorem test_illegal_words :
    decodeCmd 0x00000000#32 = .error .reservedOp ∧ decodeCmd 0x00000004#32 = .error .reservedBits ∧
    decodeCmd 0x00000005#32 = .error .reservedBits ∧ decodeCmd 0x80000002#32 = .error .reservedBits ∧
    decodeCmd 0xFFFFFFFF#32 = .error .reservedBits := ⟨rfl, rfl, rfl, rfl, rfl⟩

theorem test_encode_words :
    encodeCmd .encode = 0x00000001#32 ∧ encodeCmd .decode = 0x00000002#32 ∧ encodeCmd .overhead = 0x00000003#32 := by decide

theorem test_decodeTableWord :
    decodeTableWord 32 1 = some .encode ∧ decodeTableWord 32 2 = some .decode ∧ decodeTableWord 32 3 = some .overhead ∧
    decodeTableWord 32 0 = none := by decide

/-! ### Small states -/

/-- The reset state with these operands and this memory. -/
def withOperands (addr offset size : Word) (mem : Memory) : State :=
  { State.reset with addr := addr, offset := offset, size := size, mem := mem }

/-- `s` with `e` next. -/
def withEvent (e : Event) (s : State) : State := { s with events := [e] }

/-- What a command leaves, if it completes: RESULT, STATUS and memory. -/
def completed (o : Host.Outcome State Fault Refusal) : Option (Word × Word × Memory) :=
  match o with
  | .next s => if s.engine = .idle then some (s.result, s.status, s.mem) else none
  | .fault _ => none
  | .refused _ => none

theorem of_completed {o : Host.Outcome State Fault Refusal} {r st : Word} {m : Memory} (h : completed o = some (r, st, m)) :
    ∃ t, o = .next t ∧ t.engine = .idle ∧ t.status = st := by
  unfold completed at h
  split at h
  · split at h
    · rename_i hi
      cases h
      exact ⟨_, rfl, hi, rfl⟩
    · cases h
  · cases h
  · cases h

/-- The engine state a command leaves, if it answers a next state. -/
def engineAfter (o : Host.Outcome State Fault Refusal) : Option Engine :=
  match o with
  | .next s => some s.engine
  | .fault _ => none
  | .refused _ => none

theorem of_engineAfter {o : Host.Outcome State Fault Refusal} {e : Engine} (h : engineAfter o = some e) :
    ∃ t, o = .next t ∧ t.engine = e := by
  unfold engineAfter at h
  split at h
  · cases h
    exact ⟨_, rfl, rfl⟩
  · cases h
  · cases h

/-- What a command leaves if it hangs: RESULT, STATUS and memory. -/
def hung (o : Host.Outcome State Fault Refusal) : Option (Word × Word × Memory) :=
  match o with
  | .next { engine := .hung _, result := r, status := t, mem := m, .. } => some (r, t, m)
  | .next { engine := .idle, .. } => none
  | .next { engine := .busy _, .. } => none
  | .fault _ => none
  | .refused _ => none

/-! ### Vectors of 95_test_vectors -/

/-- E-5: `[11,22,00,33]` becomes `[03,11,22,02,33]`, RESULT 5, and the canary stays. -/
theorem test_encode_E5 :
    completed (exec .encode (withOperands 0x1000#32 1#32 4#32 [(0x1001, 0x11#8), (0x1002, 0x22#8), (0x1004, 0x33#8), (0x1005, 0xEE#8)])) =
      some (5#32, 0x00000001#32,
        [(0x1000, 0x03#8), (0x1001, 0x11#8), (0x1002, 0x22#8), (0x1003, 0x02#8), (0x1004, 0x33#8), (0x1005, 0xEE#8)]) := by decide

/-- E-20: the overhead address wraps to 0xFFFFFFFF, whose old byte does not matter. -/
theorem test_encode_E20 :
    completed (exec .encode (withOperands 0#32 0#32 1#32 [(0xFFFFFFFF, 0x5A#8)])) =
      some (2#32, 0x00000001#32, [(0, 0x01#8), (0xFFFFFFFF, 0x01#8)]) := by decide

/-- D-10: the chain 0, 3, 4 of `[03,11,22,01,33]` overwrites 0x33. -/
theorem test_decode_D10 :
    completed (exec .decode (withOperands 0x2000#32 0x77#32 5#32
        [(0x2000, 0x03#8), (0x2001, 0x11#8), (0x2002, 0x22#8), (0x2003, 0x01#8), (0x2004, 0x33#8), (0x2005, 0xEE#8)])) =
      some (4#32, 0x00000001#32, [(0x2001, 0x11#8), (0x2002, 0x22#8), (0x2005, 0xEE#8)]) := by decide

/-- D-11: `[02,11,00,22]` hangs at position 2; RESULT and STATUS keep their values. -/
theorem test_decode_D11 :
    hung (exec .decode (withOperands 0x2000#32 0x77#32 4#32 [(0x2000, 0x02#8), (0x2001, 0x11#8), (0x2003, 0x22#8)])) =
      some (0#32, 0x00000000#32, [(0x2001, 0x11#8), (0x2003, 0x22#8)]) := by decide

/-- O-4 (43_overhead_and_framing R116): SIZE 300 is no error. -/
theorem test_overhead_O4 :
    completed (exec .overhead (withOperands 0x1000#32 0#32 300#32 [])) = some (1#32, 0x00000001#32, []) := by decide

/-- X-6 and X-7: legality before size. -/
theorem test_dispatch_X6_X7 :
    completed (step (withEvent (.host (.regWrite .word 0x00#32 0x00000005#32)) (withOperands 0x1000#32 0#32 300#32 []))) =
      some (0#32, 0x0000000B#32, []) ∧
    completed (step (withEvent (.host (.regWrite .word 0x00#32 0x00000001#32)) (withOperands 0x1000#32 0#32 300#32 []))) =
      some (0#32, 0x00000007#32, []) := by decide

/-- S-1: reset clears the registers and leaves memory. -/
theorem test_reset_S1 :
    step (withEvent .reset { withOperands 0x1000#32 1#32 4#32 [(0x1000, 0x03#8)] with result := 5#32, status := 0x00000001#32 }) =
      .next { State.reset with mem := [(0x1000, 0x03#8)] } := by
  rfl

/-! ### Witnesses: for each statement with hypotheses, a state (and operands) that meets them, clause by clause -/

theorem allAdmitted_of_check {p : Platform} {base : Word} {len : Nat} (h : regionAdmitted p { base := base, len := len } = true) :
    AllAdmitted p base len := (regionAdmitted_iff p _).1 h

/-- A platform with one buffer byte, at 0x1000. -/
def oneByte : Platform := { codecBase := 0x40000000#32, buffer := [{ first := 0x1000#32, last := 0x1000#32 }] }

/-- `StepRunsTheDecodedCommand`, on the word of each command. -/
theorem witness_StepRunsTheDecodedCommand (i : Instr) :
    (withEvent (.host (.regWrite .word 0x00#32 (encodeCmd i))) State.reset).engine = .idle ∧
    (withEvent (.host (.regWrite .word 0x00#32 (encodeCmd i))) State.reset).events =
      .host (.regWrite .word 0x00#32 (encodeCmd i)) :: [] ∧
    decodeCmd (encodeCmd i) = .ok i := by cases i <;> exact ⟨rfl, rfl, rfl⟩

theorem witness_FetchWordRunsTheTableCommand : decodeTableWord 32 3 = some .overhead ∧ decodeTableWord 2 1 = some .encode := by decide

/-- `IllegalWordCompletesAsIllegalCmd`: OP 0b00 alone, and the lowest and the highest bit of RSV alone. -/
theorem witness_IllegalWordCompletesAsIllegalCmd :
    ∀ w ∈ [0x00000000#32, 0x00000005#32, 0x80000002#32],
      (withEvent (.host (.regWrite .word 0x00#32 w)) State.reset).engine = .idle ∧
      (withEvent (.host (.regWrite .word 0x00#32 w)) State.reset).events = .host (.regWrite .word 0x00#32 w) :: [] ∧
      (w.extractLsb' 2 30 ≠ 0#30 ∨ w.extractLsb' 0 2 = 0b00#2) := by
  intro w h
  simp only [List.mem_cons, List.not_mem_nil, or_false] at h
  rcases h with rfl | rfl | rfl <;> decide

/-- `CausesOfFailureAndTheirPriority`: the sizes on both sides of each bound, and a completed CMD write. -/
theorem witness_CausesOfFailureAndTheirPriority :
    254 < (withOperands 0#32 0#32 255#32 []).size.toNat ∧ ¬ 254 < (withOperands 0#32 0#32 254#32 []).size.toNat ∧
    (withOperands 0#32 0#32 0#32 []).size.toNat < 1 ∧ 255 < (withOperands 0#32 0#32 256#32 []).size.toNat ∧
    (withEvent (.host (.regWrite .word 0x00#32 0x00000002#32)) (withOperands 0#32 0#32 256#32 [])).engine = .idle ∧
    (withEvent (.host (.regWrite .word 0x00#32 0x00000002#32)) (withOperands 0#32 0#32 256#32 [])).events =
      .host (.regWrite .word 0x00#32 0x00000002#32) :: [] ∧
    completed (step (withEvent (.host (.regWrite .word 0x00#32 0x00000002#32)) (withOperands 0#32 0#32 256#32 []))) =
      some (0#32, 0x00000007#32, []) := by decide

/-- `OutcomeDependsOnOperandsAndRegionOnly`: the states differ in RESULT, STATUS and a byte outside the region. -/
theorem witness_OutcomeDependsOnOperandsAndRegionOnly :
    capture (withOperands 0x1000#32 1#32 1#32 [(0x1001, 0x07#8)]) =
      capture { withOperands 0x1000#32 1#32 1#32 [(0x1001, 0x07#8), (0x1002, 0xEE#8)] with result := 5#32, status := 0x00000001#32 } ∧
    ∀ k, k < (commandRegion .encode (capture (withOperands 0x1000#32 1#32 1#32 []))).len →
      Memory.read [(0x1001, 0x07#8)] (blk (commandRegion .encode (capture (withOperands 0x1000#32 1#32 1#32 []))).base k) =
      Memory.read [(0x1001, 0x07#8), (0x1002, 0xEE#8)]
        (blk (commandRegion .encode (capture (withOperands 0x1000#32 1#32 1#32 []))).base k) := by decide

/-- The hypotheses of the ENCODE statements (`EncodeWritesTheEncodedBlock`, `EncodeResultAndStatus`, `EncodeIgnoresTheOldOverheadByte`,
`EncodedBlockHasNoZeroByte`, `EncodeMarkersAreInRange`, `EncodeOfZeroFreeAndAllZeroPayloads`, `RoundTripRestoresThePayload`) at the
smallest and the largest SIZE. -/
theorem witness_encode_runs :
    ((withOperands 0x1000#32 1#32 0#32 []).size.toNat ≤ 254 ∧
      AllAdmitted State.reset.platform (0x1000#32 + 1#32 - 1#32) (0 + 1)) ∧
    ((withOperands 0x1000#32 1#32 254#32 []).size.toNat ≤ 254 ∧
      AllAdmitted State.reset.platform (0x1000#32 + 1#32 - 1#32) (254 + 1)) :=
  ⟨⟨by decide, allAdmitted_of_check (by decide +kernel)⟩, by decide, allAdmitted_of_check (by decide +kernel)⟩

/-- The payload hypotheses of the same statements: a zero byte at position 1, a non-zero one at position 2; a payload with no zero;
a payload of zeros. -/
theorem witness_encode_payloads :
    Memory.read [(0x1002, 0xBB#8)] (blk 0x1000#32 1) = 0x00#8 ∧ Memory.read [(0x1002, 0xBB#8)] (blk 0x1000#32 2) ≠ 0x00#8 ∧
    (∀ k, 1 ≤ k → k ≤ 1 → Memory.read [(0x1001, 0xBB#8)] (blk 0x1000#32 k) ≠ 0x00#8) ∧
    (∀ k, 1 ≤ k → k ≤ 2 → Memory.read [] (blk 0x1000#32 k) = 0x00#8) :=
  ⟨by decide, by decide, fun k h1 h2 => by rw [show k = 1 by omega]; decide, fun _ _ _ => rfl⟩

/-- `EncodeSizeCheck`, and the failing clauses of `EncodeResultAndStatus` and `EncodeFrame`. -/
theorem witness_EncodeSizeCheck : 254 < (withOperands 0#32 0#32 255#32 []).size.toNat := by decide

/-- `EncodeOfAnInadmissibleRegionIsStuck`: position 1 is not admitted. -/
theorem witness_EncodeOfAnInadmissibleRegionIsStuck :
    (withOperands 0x1000#32 1#32 1#32 []).size.toNat ≤ 254 ∧ ¬ AllAdmitted oneByte (0x1000#32 + 1#32 - 1#32) (1 + 1) :=
  ⟨by decide, fun h => absurd (h 1 (by decide)) (by decide)⟩

/-- `EncodeFrame`, `DecodeFrame`, `DoneIsSetByCompletionAndClearedByResetOnly` (its first part): a command that answers a next state. -/
theorem witness_command_answers :
    exec .encode (withOperands 0#32 0#32 255#32 []) = .next (raiseError .sizeRange (withOperands 0#32 0#32 255#32 [])) ∧
    exec .decode (withOperands 0#32 0#32 0#32 []) = .next (raiseError .sizeRange (withOperands 0#32 0#32 0#32 [])) := ⟨rfl, rfl⟩

/-- A position that is no marker (`EncodeFrame`) and one off the chain (`DecodeFrame`). -/
theorem witness_positions_left_alone :
    ¬ IsMarker [(0x1001, 0xBB#8)] 0x1000#32 1 1 ∧ ¬ OnChain [(0x1000, 0x02#8)] 0x1000#32 2 1 := by
  constructor
  · rintro (h | ⟨-, -, h⟩)
    · cases h
    · exact absurd h (by decide)
  · have key : ∀ k, OnChain [(0x1000, 0x02#8)] 0x1000#32 2 k → k = 0 := by
      intro k h
      induction h with
      | start => rfl
      | jump _ hlt ih => rw [ih] at hlt; exact absurd hlt (by decide)
    exact fun h => absurd (key 1 h) (by decide)

/-- The hypotheses of the DECODE statements that complete (`DecodeClearsTheChain`, `DecodeResultAndStatus`, `ZeroFreeBlockNeverHangs`): D-1,
the smallest block, and D-5. -/
theorem witness_decode_completes :
    (AllAdmitted State.reset.platform 0x2000#32 1 ∧ ChainClear [(0x2000, 0x01#8)] 0x2000#32 1 ∧
      ∀ k, k < 1 → Memory.read [(0x2000, 0x01#8)] (blk 0x2000#32 k) ≠ 0x00#8) ∧
    (AllAdmitted State.reset.platform 0x2000#32 5 ∧
      ChainClear [(0x2000, 0x03#8), (0x2001, 0x11#8), (0x2002, 0x22#8), (0x2003, 0x02#8), (0x2004, 0x33#8)] 0x2000#32 5) :=
  ⟨⟨allAdmitted_of_check (by decide), chainClear_of_ended (m' := []) (by decide) (by decide), by decide⟩,
    allAdmitted_of_check (by decide),
    chainClear_of_ended (m' := [(0x2001, 0x11#8), (0x2002, 0x22#8), (0x2004, 0x33#8)]) (by decide) (by decide)⟩

/-- The largest block: SIZE 255 passes the size check and its region is admitted; its overhead byte FF jumps past it. -/
theorem witness_decode_largest :
    1 ≤ (255#32).toNat ∧ (255#32).toNat ≤ 255 ∧ AllAdmitted State.reset.platform 0x2000#32 255 ∧
    ChainClear [(0x2000, 0xFF#8)] 0x2000#32 255 :=
  ⟨by decide, by decide, allAdmitted_of_check (by decide +kernel), chainClear_of_ended (m' := []) (by decide) (by decide +kernel)⟩

/-- `DecodeOfAZeroCodeByteHangs`, and the hanging clause of `DecodeResultAndStatus`: D-12 and D-11. -/
theorem witness_DecodeOfAZeroCodeByteHangs :
    (AllAdmitted State.reset.platform 0x2000#32 1 ∧ ¬ ChainClear [] 0x2000#32 1) ∧
    (AllAdmitted State.reset.platform 0x2000#32 4 ∧ ¬ ChainClear [(0x2000, 0x02#8), (0x2001, 0x11#8), (0x2003, 0x22#8)] 0x2000#32 4) :=
  ⟨⟨allAdmitted_of_check (by decide), not_chainClear_of_zeroCode (m' := []) (by decide) (by decide)⟩,
    allAdmitted_of_check (by decide),
    not_chainClear_of_zeroCode (m' := [(0x2001, 0x11#8), (0x2003, 0x22#8)]) (by decide) (by decide)⟩

/-- `DecodeSizeCheck`, and the failing clauses of `DecodeResultAndStatus` and `DecodeFrame`. -/
theorem witness_DecodeSizeCheck :
    (withOperands 0#32 0#32 0#32 []).size.toNat < 1 ∧ 255 < (withOperands 0#32 0#32 256#32 []).size.toNat := by decide

/-- `DecodeOfAnInadmissibleRegionIsStuck`: the last position is not admitted, though off the chain. -/
theorem witness_DecodeOfAnInadmissibleRegionIsStuck :
    1 ≤ (withOperands 0x1000#32 0#32 2#32 []).size.toNat ∧ (withOperands 0x1000#32 0#32 2#32 []).size.toNat ≤ 255 ∧
    ¬ AllAdmitted oneByte 0x1000#32 2 :=
  ⟨by decide, by decide, fun h => absurd (h 1 (by decide)) (by decide)⟩

/-- `DecodingTwiceHangs`: D-1 completes with STATUS 0x00000001. -/
theorem witness_DecodingTwiceHangs :
    ∃ t, exec .decode (withOperands 0x2000#32 0#32 1#32 [(0x2000, 0x01#8)]) = .next t ∧ t.engine = .idle ∧ t.status = 0x00000001#32 :=
  of_completed (r := 0#32) (m := []) (by decide)

/-- `DoneIsSetByCompletionAndClearedByResetOnly` (its second part), `ParametersNeverChange`, `OnlyHostWritesChangeOperandRegisters`: a
register write after a command. -/
theorem witness_step_without_reset :
    (∀ rest, (withEvent (.host (.regWrite .word 0x04#32 7#32)) State.reset).events ≠ .reset :: rest) ∧
    statusDone { State.reset with status := 0x00000001#32 }.status = true ∧
    step (withEvent (.host (.regWrite .word 0x04#32 7#32)) { State.reset with status := 0x00000001#32 }) =
      .next { State.reset with status := 0x00000001#32, addr := 7#32 } :=
  ⟨fun _ h => (by cases h), by decide, rfl⟩

/-- `StuckAndHungCommandsWriteNoResult`: D-12 hangs, and an ENCODE over the register window is stuck. -/
theorem witness_StuckAndHungCommandsWriteNoResult :
    (∃ t, exec .decode (withOperands 0x2000#32 0#32 1#32 []) = .next t ∧
      t.engine = .hung { addr := 0x2000#32, offset := 0#32, size := 1#32 }) ∧
    (∃ t, exec .encode (withOperands 0x40000000#32 1#32 0#32 []) = .next t ∧
      t.engine = .busy (.stuck .encode { addr := 0x40000000#32, offset := 1#32, size := 0#32 })) :=
  ⟨of_engineAfter (by decide), of_engineAfter (by decide)⟩

/-- `RegionOverTheWindowIsStuck`: the first and the last byte of the window. -/
theorem witness_RegionOverTheWindowIsStuck :
    ∀ a ∈ [0x40000000#32, 0x4000001F#32],
      sizeOk .encode (capture (withOperands a 1#32 0#32 [])) = true ∧
      0 < (commandRegion .encode (capture (withOperands a 1#32 0#32 []))).len ∧
      inWindow State.reset.platform (blk (commandRegion .encode (capture (withOperands a 1#32 0#32 []))).base 0) = true := by
  intro a h
  simp only [List.mem_cons, List.not_mem_nil, or_false] at h
  rcases h with rfl | rfl <;> decide

/-- The engine stuck in an ENCODE, and HUNG in a DECODE (`OnlyResetLeavesStuckOrHung`, `ResetEndsStuckAndHungCommands`,
`HostWaitsForTheCommand`). -/
def stuckState : State := stick .encode { addr := 0x40000000#32, offset := 1#32, size := 0#32 } State.reset

def hungState : State := hang { addr := 0x2000#32, offset := 0#32, size := 1#32 } State.reset

theorem witness_OnlyResetLeavesStuckOrHung :
    (withEvent .engine stuckState).NeverCompletes ∧ (withEvent .engine hungState).NeverCompletes ∧
    step (withEvent .engine stuckState) = .next stuckState ∧ step (withEvent .engine hungState) = .next hungState ∧
    (∀ rest, (withEvent .engine hungState).events ≠ .reset :: rest) :=
  ⟨.inl ⟨_, _, rfl⟩, .inr ⟨_, rfl⟩, rfl, rfl, fun _ h => by cases h⟩

theorem witness_ResetEndsStuckAndHungCommands :
    (withEvent .reset stuckState).events = .reset :: [] ∧ (withEvent .reset stuckState).NeverCompletes ∧
    (withEvent .reset hungState).events = .reset :: [] ∧ (withEvent .reset hungState).NeverCompletes :=
  ⟨rfl, .inl ⟨_, _, rfl⟩, rfl, .inr ⟨_, rfl⟩⟩

theorem witness_HostWaitsForTheCommand :
    (withEvent (.host (.regRead .word 0x14#32)) hungState).engine ≠ .idle ∧
    (withEvent (.host (.regRead .word 0x14#32)) hungState).events = .host (.regRead .word 0x14#32) :: [] ∧
    (withEvent (.issue 0x00000003#32) stuckState).engine ≠ .idle ∧
    (withEvent (.issue 0x00000003#32) stuckState).events = .issue 0x00000003#32 :: [] := by decide

/-- `RegisterReadsHaveNoSideEffect`, `RegisterWritesReachOperandRegistersOnly`, `ReservedOffsetsReadZeroAndIgnoreWrites`: at every offset, from
an IDLE engine. -/
theorem witness_register_accesses :
    ∀ off ∈ [0x00#32, 0x04#32, 0x08#32, 0x0C#32, 0x10#32, 0x14#32, 0x18#32, 0x1C#32],
      (withEvent (.host (.regRead .word off)) State.reset).engine = .idle ∧
      (withEvent (.host (.regRead .word off)) State.reset).events = .host (.regRead .word off) :: [] ∧
      (withEvent (.host (.regWrite .word off 7#32)) State.reset).engine = .idle ∧
      (withEvent (.host (.regWrite .word off 7#32)) State.reset).events = .host (.regWrite .word off 7#32) :: [] := by
  intro off h
  simp only [List.mem_cons, List.not_mem_nil, or_false] at h
  rcases h with rfl | rfl | rfl | rfl | rfl | rfl | rfl | rfl <;> decide

/-- `OnlyAlignedWordAccessesReachTheWindow`: the last register; and what is refused: a byte and a misaligned access (G-6), a word that
straddles the window's end, and one that straddles its start. -/
theorem witness_OnlyAlignedWordAccessesReachTheWindow :
    ((0x1C#32).toNat % 4 = 0 ∧ (0x1C#32).toNat < 32) ∧
    (∀ x ∈ [(Width.byte, 0x10#32), (Width.word, 0x02#32), (Width.word, 0x1E#32), (Width.word, 0xFFFFFFFE#32)],
      ¬ (x.1 = .word ∧ x.2.toNat % 4 = 0 ∧ x.2.toNat < 32) ∧
      touchesWindow x.1 x.2 = true ∧
      (withEvent (.host (.regRead x.1 x.2)) State.reset).engine = .idle ∧
      (withEvent (.host (.regRead x.1 x.2)) State.reset).events = .host (.regRead x.1 x.2) :: []) := by
  refine ⟨by decide, ?_⟩
  intro x h
  simp only [List.mem_cons, List.not_mem_nil, or_false] at h
  rcases h with rfl | rfl | rfl | rfl <;> decide

/-- `HostByteAccesses`: just below and just above the window, and its two ends. -/
theorem witness_HostByteAccesses :
    inWindow State.reset.platform 0x3FFFFFFF#32 = false ∧ inWindow State.reset.platform 0x40000020#32 = false ∧
    inWindow State.reset.platform 0x40000000#32 = true ∧ inWindow State.reset.platform 0x4000001F#32 = true ∧
    (∀ e ∈ [Event.host (.storeByte 0x40000020#32 0x07#8), Event.host (.loadByte 0x40000020#32),
        Event.host (.storeByte 0x40000000#32 0x07#8), Event.host (.loadByte 0x4000001F#32)],
      (withEvent e State.reset).engine = .idle ∧ (withEvent e State.reset).events = e :: []) := by decide

/-- `ResetFromIdle`. -/
theorem witness_ResetFromIdle :
    (withEvent .reset (withOperands 1#32 2#32 3#32 [])).events = .reset :: [] ∧
    (withEvent .reset (withOperands 1#32 2#32 3#32 [])).engine = .idle := by decide

/-- An engine BUSY in an ENCODE, a DECODE, an OVERHEAD and a failing command. -/
def busyState (w : Work) : State := { State.reset with engine := .busy w }

/-- The operands ADDR 0x1000, OFFSET 1, SIZE 4 (E-5). -/
def ops4 : Operands := { addr := 0x1000#32, offset := 1#32, size := 4#32 }

/-- The operands ADDR 0x3FFFFFFF, OFFSET 1, SIZE 1: ENCODE's region is one byte below the window and the window's first byte. -/
def opsBelowWindow : Operands := { addr := 0x3FFFFFFF#32, offset := 1#32, size := 1#32 }

/-- `ResetDuringACommand` (S-7), in each of its clauses. -/
theorem witness_ResetDuringACommand :
    ∀ wk ∈ [Work.encode ops4 .none .start, Work.decode ops4 .none (.read 0), Work.overhead, Work.failing .sizeRange],
      (withEvent .reset (busyState wk)).events = .reset :: [] ∧ (withEvent .reset (busyState wk)).engine = .busy wk := by decide

/-- `CommandsOnResetOperands`: 0xFFFFFFFF admitted, and not admitted. -/
theorem witness_CommandsOnResetOperands :
    State.reset.addr = 0#32 ∧ State.reset.offset = 0#32 ∧ State.reset.size = 0#32 ∧
    admitted State.reset.platform 0xFFFFFFFF#32 = true ∧ admitted oneByte 0xFFFFFFFF#32 = false := by decide

/-- `OutsideAccessRacesTheCommand`: a read and a write, at the two ends of the region. -/
theorem witness_OutsideAccessRacesTheCommand :
    ∀ a ∈ [OutsideAccess.read 0x1000#32, OutsideAccess.write 0x1003#32 0x07#8],
      inWindow State.reset.platform a.address = false ∧
      (withEvent (.outside a) (busyState (.encode ops4 .none .start))).events = .outside a :: [] ∧
      races a (withEvent (.outside a) (busyState (.encode ops4 .none .start))) = true ∧
      (withEvent (.outside a) (busyState (.encode ops4 .none .start))).engine = .busy (.encode ops4 .none .start) ∧
      races a (withEvent (.outside a) (busyState (.decode ops4 .read (.read 0)))) = true ∧
      (withEvent (.outside a) (busyState (.decode ops4 .read (.read 0)))).engine = .busy (.decode ops4 .read (.read 0)) := by decide

/-- `OutsideAccessToAStuckOrHungRegion`: a stuck ENCODE whose region starts just below the window, and a HUNG DECODE. -/
theorem witness_OutsideAccessToAStuckOrHungRegion :
    (∀ a ∈ [OutsideAccess.read 0x3FFFFFFF#32, OutsideAccess.write 0x3FFFFFFF#32 0x07#8],
      inWindow State.reset.platform a.address = false ∧
      (withEvent (.outside a) (busyState (.stuck .encode opsBelowWindow))).events = .outside a :: [] ∧
      races a (withEvent (.outside a) (busyState (.stuck .encode opsBelowWindow))) = true ∧
      (withEvent (.outside a) (busyState (.stuck .encode opsBelowWindow))).engine = .busy (.stuck .encode opsBelowWindow)) ∧
    (Work.stuck .encode opsBelowWindow).Ok State.reset.platform ∧
    inWindow State.reset.platform 0x2000#32 = false ∧
    races (.read 0x2000#32) (withEvent (.outside (.read 0x2000#32)) hungState) = true ∧
    (withEvent (.outside (.read 0x2000#32)) hungState).engine = .hung { addr := 0x2000#32, offset := 0#32, size := 1#32 } := by
  refine ⟨by decide, ?_, by decide, by decide, rfl⟩
  show checkCommand .encode opsBelowWindow State.reset.platform = .inadmissible
  decide

/-- `RacedCommandLeavesFreeBytes`: a write-raced and a read-raced ENCODE, a write-raced DECODE, and read-raced DECODEs that complete and
that hang. -/
theorem witness_RacedCommandLeavesFreeBytes :
    ops4.size.toNat ≤ 254 ∧ 1 ≤ ops4.size.toNat ∧ ops4.size.toNat ≤ 255 ∧
    (busyState (.encode ops4 .write .start)).engine = .busy (.encode ops4 .write .start) ∧
    (engineStep (busyState (.encode ops4 .read (.scan 0 0)))).engine = .idle ∧
    (DecodePhase.read 0).Ok ops4.size.toNat ∧
    (busyState (.decode ops4 .write (.read 0))).engine = .busy (.decode ops4 .write (.read 0)) ∧
    (DecodePhase.read 4).Ok ops4.size.toNat ∧ (engineStep (busyState (.decode ops4 .read (.read 4)))).engine = .idle ∧
    (DecodePhase.clear 3 0x00#8).Ok ops4.size.toNat ∧
    (engineStep (busyState (.decode ops4 .read (.clear 3 0x00#8)))).engine = .hung ops4 ∧
    (DecodePhase.clear 3 0x01#8).Ok ops4.size.toNat ∧ ops4.size.toNat ≤ 3 + (0x01#8).toNat :=
  ⟨by decide, by decide, by decide, rfl, rfl, (by decide : 0 ≤ 509), rfl, (by decide : 4 ≤ 509), rfl, (by decide : 3 < 4), rfl,
    (by decide : 3 < 4), by decide⟩

/-- 42_decoder R104: a zero code byte already read hangs whatever an outside agent then writes; R101: at the end nothing more is read. -/
theorem test_write_raced_decode :
    (engineStep (busyState (.decode ops4 .write (.clear 2 0x00#8)))).engine = .hung ops4 ∧
    (engineStep (busyState (.decode ops4 .write (.read 4)))).engine = .idle := ⟨rfl, rfl⟩

/-- `OutsideAccessElsewhereIsOrdinary`: one byte past the region, and in the window. -/
theorem witness_OutsideAccessElsewhereIsOrdinary :
    inWindow State.reset.platform 0x1005#32 = false ∧
    races (.read 0x1005#32) (busyState (.encode ops4 .none .start)) = false ∧
    races (.write 0x1005#32 0x07#8) (busyState (.encode ops4 .none .start)) = false ∧
    inWindow State.reset.platform 0x4000001F#32 = true ∧
    (withEvent (.outside (.read 0x1005#32)) (busyState (.encode ops4 .none .start))).events = .outside (.read 0x1005#32) :: [] := by decide

/-- `IssuedCommandMakesTheEngineBusy` and `EngineStepsReachTheWholeCommand`: a legal and an illegal word issued; for each clause on the
operands, a SIZE at its bound and a region admitted or not. -/
theorem witness_issued_command :
    (∀ w ∈ [Event.issue 0x00000001#32, Event.issue 0x00000002#32, Event.issue 0x00000003#32, Event.issue 0x00000000#32],
      (withEvent w (withOperands 0x1000#32 1#32 4#32 [])).engine = .idle ∧
      (withEvent w (withOperands 0x1000#32 1#32 4#32 [])).events = [w]) ∧
    decodeCmd 0x00000001#32 = .ok .encode ∧ decodeCmd 0x00000002#32 = .ok .decode ∧ decodeCmd 0x00000003#32 = .ok .overhead ∧
    decodeCmd 0x00000000#32 = .error .reservedOp ∧
    254 < (255#32).toNat ∧ (0#32).toNat < 1 ∧ 255 < (256#32).toNat ∧
    AllAdmitted State.reset.platform (0x1000#32 + 1#32 - 1#32) (4 + 1) ∧ AllAdmitted State.reset.platform 0x1000#32 4 ∧
    ¬ AllAdmitted oneByte (0x1000#32 + 1#32 - 1#32) (4 + 1) ∧ ¬ AllAdmitted oneByte 0x1000#32 4 :=
  ⟨by decide, rfl, rfl, rfl, rfl, by decide, by decide, by decide, allAdmitted_of_check (by decide),
    allAdmitted_of_check (by decide), fun h => absurd (h 1 (by decide)) (by decide), fun h => absurd (h 1 (by decide)) (by decide)⟩

theorem busyState_inv {wk : Work} (h : wk.Ok State.reset.platform) : (busyState wk).Inv :=
  ⟨rfl, .inl rfl, Nat.zero_le 255, fun _ => rfl, h⟩

/-- `EngineStepTouchesOneRegionByte`, `EveryStepKeepsTheInvariant`: in each phase, a BUSY engine that meets the invariant, undisturbed and
raced; and a step. -/
theorem witness_invariant :
    (busyState (.encode ops4 .none .start)).Inv ∧ (busyState (.encode ops4 .read (.mark 4 5))).Inv ∧
    (busyState (.encode ops4 .read (.scan 4 5))).Inv ∧ (busyState (.encode ops4 .none (.scan 0 0))).Inv ∧
    (busyState (.encode ops4 .write .start)).Inv ∧
    (busyState (.decode ops4 .read (.read 0))).Inv ∧ (busyState (.decode ops4 .none (.read 4))).Inv ∧
    (busyState (.decode ops4 .read (.clear 3 0x01#8))).Inv ∧ (busyState (.decode ops4 .none (.clear 3 0x00#8))).Inv ∧
    (busyState .overhead).Inv ∧ (busyState (.failing .illegalCmd)).Inv ∧
    ∃ t, step (busyState (.encode ops4 .none .start)) = .next t := by
  have he : checkCommand .encode ops4 State.reset.platform = .run := by decide
  have hd : checkCommand .decode ops4 State.reset.platform = .run := by decide
  exact ⟨busyState_inv ⟨he, trivial⟩,
    busyState_inv ⟨he, (by decide : 4 ≤ 4 ∧ 5 ≤ 4 + 1 ∧ 4 < 5)⟩,
    busyState_inv ⟨he, (by decide : 4 ≤ 4 ∧ 5 ≤ 4 + 1 ∧ (5 ≠ 0 → 4 < 5))⟩,
    busyState_inv ⟨he, (by decide : 0 ≤ 4 ∧ 0 ≤ 4 + 1 ∧ (0 ≠ 0 → 0 < 0))⟩,
    busyState_inv ⟨he, trivial⟩,
    busyState_inv ⟨hd, (by decide : 0 ≤ 509)⟩, busyState_inv ⟨hd, (by decide : 4 ≤ 509)⟩,
    busyState_inv ⟨hd, (by decide : 3 < 4)⟩, busyState_inv ⟨hd, (by decide : 3 < 4)⟩,
    busyState_inv trivial, busyState_inv trivial, _, rfl⟩

/-- Log entry 20: after a reset that ended a stuck command, with no host transaction left, the state counts as final. -/
theorem test_final_after_abandoned_write : (resetBlock stuckState).Final :=
  ⟨rfl, fun _ h => by cases h⟩

end Sys2Proof.Tests
end

