-- ==== Sys2Proof/Proofs/Parameters.lean ====
section
/-! PROOFS. The OPEN parameters CODEC_BASE and Admitted stand still (00_scope R7, R8; 10_state R38). -/

namespace Sys2Proof.Machine

@[simp] theorem engineStep_platform (s : State) : (engineStep s).platform = s.platform := by
  obtain ⟨-, -, -, hplatform, -⟩ := engineStep_keeps s
  exact hplatform

@[simp] theorem racingAccess_platform (a : OutsideAccess) (s : State) : (racingAccess a s).platform = s.platform := by
  obtain ⟨-, -, -, -, -, hplatform, -⟩ := racingAccess_keeps a s
  exact hplatform

@[simp] theorem plainAccess_platform (a : OutsideAccess) (s : State) : (plainAccess a s).platform = s.platform := by
  obtain ⟨-, -, -, -, -, -, hplatform, -⟩ := plainAccess_keeps a s
  exact hplatform

/-- Whichever way a whole command ends, it writes no parameter. -/
theorem exec_platform {i : Instr} {s t : State} (h : exec i s = .next t) : t.platform = s.platform := by
  rcases exec_cases i s with ⟨he, -⟩ | ⟨he, -⟩ | ⟨r, m, he, -⟩ | ⟨m, he, -⟩ <;> cases he.symm.trans h
  · exact raiseError_platform _ s
  · exact stick_platform _ _ s
  · exact complete_platform r { s with mem := m }
  · exact hang_platform _ { s with mem := m }

/-- Settles O41, by cases on what the step was: each of its operations leaves the parameters alone. -/
theorem parametersNeverChange : Obligations.ParametersNeverChange := by
  unfold Obligations.ParametersNeverChange
  intro s t h
  cases step_cases h with
  | engineAlone _ => exact engineStep_platform s
  | hostWaits _ _ _ _ _ => exact engineStep_platform s
  | engineEvent rest _ => exact engineStep_platform { s with events := rest }
  | command _ _ rest _ _ _ _ hexec => exact exec_platform (s := { s with events := rest }) hexec
  | illegal _ _ rest _ _ _ => exact raiseError_platform _ { s with events := rest }
  | regWrite r v rest _ _ _ => exact writeReg_platform r v { s with events := rest }
  | regRead _ _ _ _ => rfl
  | store _ _ _ _ _ _ => rfl
  | load _ _ _ _ _ => rfl
  | issue w rest _ _ => exact beginCommand_platform w { s with events := rest }
  | racing a rest _ _ _ => exact racingAccess_platform a { s with events := rest }
  | plain a rest _ _ _ => exact plainAccess_platform a { s with events := rest }
  | reset rest _ => exact (resetBlock_platform _).trans (resetMemory_platform { s with events := rest })

end Sys2Proof.Machine
end

