-- ==== Sys2Proof/Proofs/Outcomes.lean ====
section
/-! PROOFS. Everything a whole command (40_dispatch R70) and everything one engine step (41_encoder R86, 42_decoder R101) can leave behind. -/

namespace Sys2Proof.Machine

/-! ### A whole command -/

/-- No command stops (40_dispatch R70). -/
theorem exec_next (i : Instr) (s : State) : ∃ t, exec i s = .next t := by
  rcases exec_cases i s with ⟨he, -⟩ | ⟨he, -⟩ | ⟨_, _, he, -⟩ | ⟨_, he, -⟩ <;> exact ⟨_, he⟩

/-- A command's frame but for memory: it writes no field but RESULT, STATUS, the engine and memory (10_state R29). -/
theorem exec_keeps {i : Instr} {s t : State} (h : exec i s = .next t) :
    t.addr = s.addr ∧ t.offset = s.offset ∧ t.size = s.size ∧ t.platform = s.platform ∧ t.events = s.events ∧
    t.hostReads = s.hostReads ∧ t.outsideReads = s.outsideReads ∧ t.draws = s.draws := by
  rcases exec_cases i s with ⟨he, -⟩ | ⟨he, -⟩ | ⟨_, _, he, -⟩ | ⟨_, he, -⟩ <;> cases he.symm.trans h <;> simp

/-! ### One engine step -/

/-- The race at a command's end can only redraw its region: memory stays canonical, and nothing but memory and the count of draws changes. -/
theorem settleRace_cases (race : Race) (r : Region) (s : State) :
    ∃ m d, settleRace race r s = { s with mem := m, draws := d } ∧ (s.mem.wf = true → m.wf = true) := by
  cases race with
  | none => exact ⟨s.mem, s.draws, rfl, id⟩
  | read => exact ⟨_, _, rfl, drawBytes_wf _ _ _⟩
  | write => exact ⟨_, _, rfl, drawBytes_wf _ _ _⟩

/-- Everything one engine step can be: the command goes on (or has no next step), completes, fails or hangs; each with what it keeps
of the canonical form of memory and of the allowed working states. -/
inductive EngineCase (s : State) : State → Prop
  | goesOn (m : Memory) (e : Engine) : (s.mem.wf = true → m.wf = true) →
      (s.engine.Ok s.platform → e.Ok s.platform) → EngineCase s { s with mem := m, engine := e }
  | completes (r : Byte) (m : Memory) (d : Nat) : (s.mem.wf = true → m.wf = true) →
      EngineCase s (complete r { s with mem := m, draws := d })
  | fails (c : Cause) : EngineCase s (raiseError c s)
  | hangs (ops : Operands) (m : Memory) (d : Nat) : (s.mem.wf = true → m.wf = true) →
      (s.engine.Ok s.platform → checkCommand .decode ops s.platform = .run) →
      EngineCase s (hang ops { s with mem := m, draws := d })

/-- A step that changes nothing goes on. -/
theorem EngineCase.unchanged (s : State) : EngineCase s s :=
  .goesOn s.mem s.engine id id

/-- A completion after the region has been settled. -/
theorem EngineCase.completesSettled (r : Byte) (race : Race) (region : Region) (s : State) :
    EngineCase s (complete r (settleRace race region s)) := by
  obtain ⟨m, d, he, hwf⟩ := settleRace_cases race region s
  rw [he]
  exact .completes r m d hwf

/-- A hang of the DECODE in progress after its region has been settled, with the memory `m` at that point. -/
theorem EngineCase.hangsSettled {s : State} {ops : Operands} {race : Race} {phase : DecodePhase}
    (hengine : s.engine = .busy (.decode ops race phase)) (race' : Race) (region : Region) {m : Memory}
    (hm : s.mem.wf = true → m.wf = true) : EngineCase s (hang ops (settleRace race' region { s with mem := m })) := by
  obtain ⟨m', d, he, hwf⟩ := settleRace_cases race' region { s with mem := m }
  rw [he]
  refine .hangs ops m' d (fun h => hwf (hm h)) (fun hok => ?_)
  rw [hengine] at hok
  exact hok.1

theorem encodeStep_case {s : State} {ops : Operands} {race : Race} {phase : EncodePhase}
    (hengine : s.engine = .busy (.encode ops race phase)) : EngineCase s (encodeStep ops race phase s) := by
  have goesOn : ∀ (m : Memory) (phase' : EncodePhase), (s.mem.wf = true → m.wf = true) →
      (phase.Ok ops.size.toNat → phase'.Ok ops.size.toNat) →
      EngineCase s { s with mem := m, engine := .busy (.encode ops race phase') } := by
    intro m phase' hm hphase
    refine .goesOn m _ hm (fun hok => ?_)
    rw [hengine] at hok
    exact ⟨hok.1, hphase hok.2⟩
  by_cases hr : race = .write
  · subst hr
    exact .completesSettled _ .write _ s
  · rcases encodeStep_cases ops hr phase s with ⟨rfl, h⟩ | ⟨_, -, h⟩ | ⟨k, next, rfl, hn, -, h⟩ |
        ⟨k, next, rfl, hn, -, h⟩ | ⟨k, next, rfl, h⟩ <;> rw [h]
    · exact goesOn _ _ (Memory.wf_write _ _) (fun _ => by simp [EncodePhase.Ok])
    · exact .completesSettled _ _ _ s
    · exact goesOn s.mem _ id (fun ⟨hk, hnext, hlt⟩ => ⟨hk, hnext, hlt hn⟩)
    · exact goesOn s.mem _ id (fun ⟨hk, hnext, hlt⟩ => ⟨by omega, hnext, fun h0 => by have := hlt h0; omega⟩)
    · exact goesOn _ _ (Memory.wf_write _ _) (fun ⟨hk, _, _⟩ => ⟨by omega, by omega, fun h0 => by omega⟩)

theorem decodeStep_case {s : State} {ops : Operands} {race : Race} {phase : DecodePhase}
    (hengine : s.engine = .busy (.decode ops race phase)) : EngineCase s (decodeStep ops race phase s) := by
  have goesOn : ∀ (m : Memory) (phase' : DecodePhase), (s.mem.wf = true → m.wf = true) →
      (ops.size.toNat ≤ 255 → phase.Ok ops.size.toNat → phase'.Ok ops.size.toNat) →
      EngineCase s { s with mem := m, engine := .busy (.decode ops race phase') } := by
    intro m phase' hm hphase
    refine .goesOn m _ hm (fun hok => ?_)
    rw [hengine] at hok
    obtain ⟨hrun, hok⟩ := hok
    obtain ⟨-, hsize⟩ := (sizeOk_decode ops).1 (checkCommand_run.1 hrun).1
    exact ⟨hrun, hphase hsize hok⟩
  by_cases hr : race = .write
  · subst hr
    rcases decodeStep_write ops phase s with h | h <;> rw [h]
    · exact .hangsSettled hengine .write _ id
    · exact .completesSettled _ .write _ s
  · rcases decodeStep_cases ops hr phase s with ⟨c, rfl, hc, h⟩ | ⟨_, -, -, h⟩ | ⟨c, rfl, h⟩ | ⟨c, v, rfl, -, h⟩ <;> rw [h]
    · exact goesOn s.mem _ id (fun _ _ => hc)
    · exact .completesSettled _ _ _ s
    · exact .hangsSettled hengine _ _ (Memory.wf_write _ _)
    · refine goesOn _ _ (Memory.wf_write _ _) (fun hsize (hc : c < _) => ?_)
      have hv := v.isLt
      show c + v.toNat ≤ 509
      omega

/-- The inversion of an engine step. -/
theorem engineStep_case (s : State) : EngineCase s (engineStep s) := by
  unfold engineStep
  split
  · exact .unchanged s
  · exact .unchanged s
  · exact .fails _
  · exact .completes _ s.mem s.draws id
  · exact .unchanged s
  · exact encodeStep_case ‹_›
  · exact decodeStep_case ‹_›

end Sys2Proof.Machine
end

