-- ==== Sys2Proof/Proofs/Invariant.lean ====
section
/-! PROOFS. The invariant of the whole machine (10_state R23, R24, R30, R32): it holds after reset, and every step keeps it. -/

namespace Sys2Proof.Machine

/-- A completion meets the invariant from any canonical memory: its RESULT is one byte and its STATUS is success (40_dispatch R72). -/
theorem complete_inv (r : Byte) {s : State} (h : s.mem.wf = true) : (complete r s).Inv where
  memWf := h
  statusLegal := .inr (.inl rfl)
  resultByte := by
    have hr := r.isLt
    simp only [complete_result, BitVec.toNat_setWidth]
    omega
  resultZero := fun hne => absurd rfl hne
  engineOk := trivial

theorem statusError_legal (c : Cause) : StatusLegal (statusError c) := by
  cases c with
  | sizeRange => exact .inr (.inr (.inl statusError_sizeRange))
  | illegalCmd => exact .inr (.inr (.inr statusError_illegalCmd))

/-- A failure meets the invariant from any canonical memory: RESULT is 0 (60_exceptions R127). -/
theorem raiseError_inv (c : Cause) {s : State} (h : s.mem.wf = true) : (raiseError c s).Inv where
  memWf := h
  statusLegal := statusError_legal c
  resultByte := Nat.zero_le 255
  resultZero := fun _ => rfl
  engineOk := trivial

theorem resetMemory_wf {s : State} (h : s.mem.wf = true) : (resetMemory s).mem.wf = true := by
  unfold resetMemory
  split
  · exact h
  · exact h
  · exact h
  · exact h
  · exact h
  · exact drawBytes_wf _ _ _ h
  · exact drawBytes_wf _ _ _ h

/-- A reset meets the invariant from any canonical memory (10_state R35). -/
theorem resetBlock_inv {s : State} (h : s.mem.wf = true) : (resetBlock s).Inv where
  memWf := resetMemory_wf h
  statusLegal := .inl rfl
  resultByte := Nat.zero_le 255
  resultZero := fun _ => rfl
  engineOk := trivial

/-- What leaves RESULT and STATUS alone keeps the invariant if it keeps memory canonical and its engine state is allowed. -/
theorem State.Inv.of_keepsResult {s t : State} (h : s.Inv) (hmem : t.mem.wf = true) (hresult : t.result = s.result)
    (hstatus : t.status = s.status) (hengine : t.engine.Ok t.platform) : t.Inv where
  memWf := hmem
  statusLegal := hstatus ▸ h.statusLegal
  resultByte := hresult ▸ h.resultByte
  resultZero := by rw [hresult, hstatus]; exact h.resultZero
  engineOk := hengine

theorem State.Inv.withEvents {s : State} (h : s.Inv) (rest : List Event) : { s with events := rest }.Inv :=
  h.of_keepsResult h.memWf rfl rfl h.engineOk

theorem EngineCase.inv {s t : State} (hcase : EngineCase s t) (h : s.Inv) : t.Inv := by
  cases hcase with
  | goesOn m e hwf hok => exact h.of_keepsResult (hwf h.memWf) rfl rfl (hok h.engineOk)
  | completes r m d hwf => exact complete_inv r (hwf h.memWf)
  | fails c => exact raiseError_inv c h.memWf
  | hangs ops m d hwf hrun => exact h.of_keepsResult (hwf h.memWf) rfl rfl (hrun h.engineOk)

theorem engineStep_inv {s : State} (h : s.Inv) : (engineStep s).Inv :=
  (engineStep_case s).inv h

theorem exec_inv {i : Instr} {s t : State} (h : s.Inv) (he : exec i s = .next t) : t.Inv := by
  rcases exec_cases i s with ⟨hx, -⟩ | ⟨hx, hc⟩ | ⟨r, m, hx, hwf⟩ | ⟨m, hx, -, hwf, hc⟩ <;> cases hx.symm.trans he
  · exact raiseError_inv _ h.memWf
  · exact h.of_keepsResult h.memWf rfl rfl hc
  · exact complete_inv r (hwf h.memWf)
  · exact h.of_keepsResult (hwf h.memWf) rfl rfl hc

theorem plainAccess_inv (a : OutsideAccess) {s : State} (h : s.Inv) : (plainAccess a s).Inv := by
  cases a with
  | read x => exact h.of_keepsResult h.memWf rfl rfl h.engineOk
  | write x v => exact h.of_keepsResult (Memory.wf_write x v h.memWf) rfl rfl h.engineOk

/-- A race changes neither operands nor phase, so the working state stays an allowed one. -/
theorem racingAccess_engineOk (a : OutsideAccess) {s : State} (h : s.engine.Ok s.platform) :
    (racingAccess a s).engine.Ok s.platform := by
  rcases racingAccess_cases a s with ⟨ops, race, phase, he, he', -⟩ | ⟨ops, race, phase, he, he', -⟩ | ⟨he, -⟩
  · rw [he] at h; rw [he']; exact h
  · rw [he] at h; rw [he']; exact h
  · rwa [he]

theorem racingAccess_wf (a : OutsideAccess) {s : State} (h : s.mem.wf = true) : (racingAccess a s).mem.wf = true := by
  rcases racingAccess_cases a s with ⟨_, _, _, -, -, hm⟩ | ⟨_, _, _, -, -, hm⟩ | ⟨-, r, d, hm⟩ <;> rw [hm]
  · exact h
  · exact h
  · exact drawBytes_wf _ _ _ h

theorem racingAccess_inv (a : OutsideAccess) {s : State} (h : s.Inv) : (racingAccess a s).Inv := by
  obtain ⟨-, -, -, hresult, hstatus, hplatform, -⟩ := racingAccess_keeps a s
  exact h.of_keepsResult (racingAccess_wf a h.memWf) hresult hstatus (hplatform ▸ racingAccess_engineOk a h.engineOk)

/-- Settles O55, by cases on what the step was: each operation keeps the invariant. -/
theorem everyStepKeepsTheInvariant : Obligations.EveryStepKeepsTheInvariant := by
  unfold Obligations.EveryStepKeepsTheInvariant
  intro s t h hstep
  cases step_cases hstep with
  | engineAlone _ => exact engineStep_inv h
  | hostWaits _ _ _ _ _ => exact engineStep_inv h
  | engineEvent rest _ => exact engineStep_inv (h.withEvents rest)
  | command _ _ rest _ _ _ _ hexec => exact exec_inv (h.withEvents rest) hexec
  | illegal _ _ rest _ _ _ => exact raiseError_inv _ h.memWf
  | regWrite r v rest _ _ _ =>
    exact (h.withEvents rest).of_keepsResult (by simpa using h.memWf) (by simp) (by simp) (by simpa using h.engineOk)
  | regRead _ _ _ _ => exact h.of_keepsResult h.memWf rfl rfl h.engineOk
  | store a v _ _ _ _ => exact h.of_keepsResult (Memory.wf_write a v h.memWf) rfl rfl h.engineOk
  | load _ _ _ _ _ => exact h.of_keepsResult h.memWf rfl rfl h.engineOk
  | issue w rest _ _ => exact h.of_keepsResult h.memWf rfl rfl (workOf_Ok _ _ _)
  | racing a rest _ _ _ => exact racingAccess_inv a (h.withEvents rest)
  | plain a rest _ _ _ => exact plainAccess_inv a (h.withEvents rest)
  | reset rest _ => exact resetBlock_inv h.memWf

/-- Settles O54: nothing is listed in memory, every register is 0 and the engine is IDLE. -/
theorem resetMeetsTheInvariant : Obligations.ResetMeetsTheInvariant := by
  unfold Obligations.ResetMeetsTheInvariant
  exact
    { memWf := rfl
      statusLegal := .inl rfl
      resultByte := Nat.zero_le 255
      resultZero := fun _ => rfl
      engineOk := trivial }

end Sys2Proof.Machine
end

