-- ==== Sys2Proof/Proofs/CommandFrames.lean ====
section
/-! PROOFS. What ENCODE and DECODE leave unchanged (20_memory R46, 41_encoder R87, 42_decoder R101), and what they do to a region that is not wholly admitted (20_memory R42). -/

namespace Sys2Proof.Machine

/-- Settles O13: the second check of ENCODE fails, and a stuck engine has no step of its own. -/
theorem encodeOfAnInadmissibleRegionIsStuck : Obligations.EncodeOfAnInadmissibleRegionIsStuck := by
  unfold Obligations.EncodeOfAnInadmissibleRegionIsStuck
  intro s hsize hadm
  refine ⟨?_, engineStep_of_neverCompletes (.inl ⟨_, _, rfl⟩)⟩
  rcases execEncode_cases s with ⟨hbad, -⟩ | ⟨-, -, hexec⟩ | ⟨-, hall, -⟩
  · exact absurd hsize hbad
  · exact hexec
  · exact absurd hall hadm

/-- Settles O23: the second check of DECODE fails, and a stuck engine has no step of its own. -/
theorem decodeOfAnInadmissibleRegionIsStuck : Obligations.DecodeOfAnInadmissibleRegionIsStuck := by
  unfold Obligations.DecodeOfAnInadmissibleRegionIsStuck
  intro s hlow hhigh hadm
  refine ⟨?_, engineStep_of_neverCompletes (.inl ⟨_, _, rfl⟩)⟩
  rcases execDecode_cases s with ⟨hbad, -⟩ | ⟨-, -, hexec⟩ | ⟨-, hall, -⟩
  · exact absurd ⟨hlow, hhigh⟩ hbad
  · exact hexec
  · exact absurd hall hadm

/-- ENCODE on memory: either a check failed and memory is as it was, or the body ran on an admitted region of a size in range. -/
theorem execEncode_mem {s t : State} (h : exec .encode s = .next t) :
    t.mem = s.mem ∨
      (s.size.toNat ≤ 254 ∧ AllAdmitted s.platform (s.addr + s.offset - 1#32) (s.size.toNat + 1) ∧
        t.mem = encodeMemory (s.addr + s.offset - 1#32) s.size.toNat s.mem) := by
  change execEncode s = .next t at h
  rcases execEncode_cases s with ⟨-, he⟩ | ⟨-, -, he⟩ | ⟨hsize, hadm, he⟩ <;> cases he.symm.trans h
  · exact .inl rfl
  · exact .inl rfl
  · exact .inr ⟨hsize, hadm, rfl⟩

/-- Settles O14: memory is as it was, or it is the encoded block's, which differs at marker positions only. -/
theorem encodeFrame : Obligations.EncodeFrame := by
  unfold Obligations.EncodeFrame
  intro s t h
  obtain ⟨haddr, hoffset, hsize, hplatform, hevents, hhost, houtside, hdraws⟩ := exec_keeps h
  refine ⟨haddr, hoffset, hsize, hplatform, hevents, hhost, houtside, hdraws, ?_⟩
  rcases execEncode_mem h with hmem | ⟨hn, hadm, hmem⟩ <;> rw [hmem]
  · exact ⟨UntouchedOutside.refl _ _ _, fun _ _ _ => rfl, fun _ => rfl⟩
  · refine ⟨encodeMemory_untouched _ _ _, fun k hk => (encodeMemory_encodedBlock _ _ hn k hk).2, ?_⟩
    rintro (hbad | hbad)
    · exact absurd hn (Nat.not_le.2 hbad)
    · exact absurd hadm hbad

/-- DECODE on memory: either a check failed and memory is as it was, or the body ran on an admitted block of a size in range and
cleared its chain. -/
theorem execDecode_mem {s t : State} (h : exec .decode s = .next t) :
    t.mem = s.mem ∨
      ((1 ≤ s.size.toNat ∧ s.size.toNat ≤ 255) ∧ AllAdmitted s.platform s.addr s.size.toNat ∧
        DecodedBlock s.mem t.mem s.addr s.size.toNat ∧ UntouchedOutside s.mem t.mem s.addr s.size.toNat) := by
  change execDecode s = .next t at h
  rcases execDecode_cases s with ⟨-, he⟩ | ⟨-, -, he⟩ | ⟨hsize, hadm, he⟩
  · cases he.symm.trans h
    exact .inl rfl
  · cases he.symm.trans h
    exact .inl rfl
  · obtain ⟨m, hdecoded, houtside, -, ⟨-, hbody⟩ | ⟨-, hbody⟩⟩ := decodeBody_cases (capture s) s <;>
      rw [hbody] at he <;> cases he.symm.trans h
    · exact .inr ⟨hsize, hadm, hdecoded, houtside⟩
    · exact .inr ⟨hsize, hadm, hdecoded, houtside⟩

/-- Settles O24: memory is as it was, or it is the decoded block's, which differs on the chain only. -/
theorem decodeFrame : Obligations.DecodeFrame := by
  unfold Obligations.DecodeFrame
  intro s t h
  obtain ⟨haddr, hoffset, hsize, hplatform, hevents, hhost, houtside, hdraws⟩ := exec_keeps h
  refine ⟨haddr, hoffset, hsize, hplatform, hevents, hhost, houtside, hdraws, ?_⟩
  rcases execDecode_mem h with hmem | ⟨⟨hlow, hhigh⟩, hadm, hdecoded, huntouched⟩
  · rw [hmem]
    exact ⟨UntouchedOutside.refl _ _ _, fun _ _ _ => rfl, fun _ => rfl⟩
  · refine ⟨huntouched, fun k hk => (hdecoded k hk).2, ?_⟩
    rintro (hbad | hbad | hbad)
    · exact absurd hlow (Nat.not_le.2 hbad)
    · exact absurd hhigh (Nat.not_le.2 hbad)
    · exact absurd hadm hbad

end Sys2Proof.Machine
end

