-- ==== Sys2Proof/Proofs/StepRegisters.lean ====
section
/-! PROOFS. What a step does to STATUS.DONE (10_state R25) and to the operand registers (10_state R29). -/

namespace Sys2Proof.Machine

/-! ### STATUS.DONE -/

/-- A command that ends sets DONE, and one that is stuck or hangs does not write STATUS (10_state R25). -/
theorem exec_status {i : Instr} {s t : State} (h : exec i s = .next t) :
    (t.engine = .idle ∧ statusDone t.status = true) ∨ (t.engine ≠ .idle ∧ t.status = s.status) := by
  rcases exec_cases i s with ⟨he, -⟩ | ⟨he, -⟩ | ⟨_, _, he, -⟩ | ⟨_, he, -⟩ <;> cases he.symm.trans h
  · exact .inl ⟨rfl, statusDone_error _⟩
  · exact .inr ⟨by simp, rfl⟩
  · exact .inl ⟨rfl, statusDone_success⟩
  · exact .inr ⟨by simp, rfl⟩

theorem exec_keeps_done {i : Instr} {s t : State} (h : exec i s = .next t) (hdone : statusDone s.status = true) :
    statusDone t.status = true := by
  rcases exec_status h with ⟨-, hset⟩ | ⟨-, hkept⟩
  · exact hset
  · rwa [hkept]

theorem EngineCase.keeps_done {s t : State} (hcase : EngineCase s t) (hdone : statusDone s.status = true) :
    statusDone t.status = true := by
  cases hcase with
  | goesOn _ _ _ _ => exact hdone
  | completes _ _ _ _ => exact statusDone_success
  | fails c => exact statusDone_error c
  | hangs _ _ _ _ _ => exact hdone

theorem engineStep_keeps_done {s : State} (hdone : statusDone s.status = true) : statusDone (engineStep s).status = true :=
  (engineStep_case s).keeps_done hdone

@[simp] theorem racingAccess_status (a : OutsideAccess) (s : State) : (racingAccess a s).status = s.status := by
  obtain ⟨-, -, -, -, hstatus, -⟩ := racingAccess_keeps a s
  exact hstatus

@[simp] theorem plainAccess_status (a : OutsideAccess) (s : State) : (plainAccess a s).status = s.status := by
  obtain ⟨-, -, -, -, hstatus, -⟩ := plainAccess_keeps a s
  exact hstatus

/-- No step but a reset clears DONE (10_state R25). -/
theorem step_keeps_done {s t : State} (h : step s = .next t) (hreset : ∀ rest, s.events ≠ .reset :: rest)
    (hdone : statusDone s.status = true) : statusDone t.status = true := by
  cases step_cases h with
  | engineAlone _ => exact engineStep_keeps_done hdone
  | hostWaits _ _ _ _ _ => exact engineStep_keeps_done hdone
  | engineEvent rest _ => exact engineStep_keeps_done (s := { s with events := rest }) hdone
  | command _ _ rest _ _ _ _ hexec => exact exec_keeps_done (s := { s with events := rest }) hexec hdone
  | illegal _ _ _ _ _ _ => exact statusDone_error _
  | regWrite r v rest _ _ _ => rwa [writeReg_status]
  | regRead _ _ _ _ => exact hdone
  | store _ _ _ _ _ _ => exact hdone
  | load _ _ _ _ _ => exact hdone
  | issue _ _ _ _ => exact hdone
  | racing a rest _ _ _ => rwa [racingAccess_status]
  | plain a rest _ _ _ => rwa [plainAccess_status]
  | reset rest he => exact absurd he (hreset rest)

/-- Settles O30: how a command can end, and by cases on what the step was. -/
theorem doneIsSetByCompletionAndClearedByResetOnly : Obligations.DoneIsSetByCompletionAndClearedByResetOnly := by
  unfold Obligations.DoneIsSetByCompletionAndClearedByResetOnly
  refine ⟨fun i s t h => ?_, fun s t h hreset hdone => step_keeps_done h hreset hdone⟩
  rcases exec_status h with ⟨hidle, hdone⟩ | ⟨hbusy, hkept⟩
  · exact ⟨fun _ => hdone, fun hbusy => absurd hidle hbusy⟩
  · exact ⟨fun hidle => absurd hidle hbusy, fun _ => hkept⟩

/-! ### The operand registers, which `capture` reads -/

/-- States with the same operand registers give a command the same operands (40_dispatch R71). -/
theorem capture_congr {s t : State} (haddr : t.addr = s.addr) (hoffset : t.offset = s.offset) (hsize : t.size = s.size) :
    capture t = capture s := by
  simp only [capture, haddr, hoffset, hsize]

@[simp] theorem engineStep_capture (s : State) : capture (engineStep s) = capture s := by
  obtain ⟨haddr, hoffset, hsize, -⟩ := engineStep_keeps s
  exact capture_congr haddr hoffset hsize

@[simp] theorem racingAccess_capture (a : OutsideAccess) (s : State) : capture (racingAccess a s) = capture s := by
  obtain ⟨haddr, hoffset, hsize, -⟩ := racingAccess_keeps a s
  exact capture_congr haddr hoffset hsize

@[simp] theorem plainAccess_capture (a : OutsideAccess) (s : State) : capture (plainAccess a s) = capture s := by
  obtain ⟨haddr, hoffset, hsize, -⟩ := plainAccess_keeps a s
  exact capture_congr haddr hoffset hsize

theorem exec_capture {i : Instr} {s t : State} (h : exec i s = .next t) : capture t = capture s := by
  obtain ⟨haddr, hoffset, hsize, -⟩ := exec_keeps h
  exact capture_congr haddr hoffset hsize

/-- A step that is no reset keeps the operand registers or is a host register write (10_state R29). -/
theorem step_capture {s t : State} (h : step s = .next t) (hreset : ∀ rest, s.events ≠ .reset :: rest) :
    capture t = capture s ∨
      ∃ r v rest, s.events = .host (.regWrite .word r.offsetOf v) :: rest ∧ t = writeReg r v { s with events := rest } := by
  cases step_cases h with
  | engineAlone _ => exact .inl (engineStep_capture s)
  | hostWaits _ _ _ _ _ => exact .inl (engineStep_capture s)
  | engineEvent rest _ => exact .inl (engineStep_capture { s with events := rest })
  | command _ _ rest _ _ _ _ hexec => exact .inl (exec_capture (s := { s with events := rest }) hexec)
  | illegal _ _ _ _ _ _ => exact .inl rfl
  | regWrite r v rest _ he _ => exact .inr ⟨r, v, rest, he, rfl⟩
  | regRead _ _ _ _ => exact .inl rfl
  | store _ _ _ _ _ _ => exact .inl rfl
  | load _ _ _ _ _ => exact .inl rfl
  | issue _ _ _ _ => exact .inl rfl
  | racing a rest _ _ _ => exact .inl (racingAccess_capture a { s with events := rest })
  | plain a rest _ _ _ => exact .inl (plainAccess_capture a { s with events := rest })
  | reset rest he => exact absurd he (hreset rest)

/-- Settles O33: a register write changes the register it names, and every other step no operand register. -/
theorem onlyHostWritesChangeOperandRegisters : Obligations.OnlyHostWritesChangeOperandRegisters := by
  unfold Obligations.OnlyHostWritesChangeOperandRegisters
  intro s t h hreset
  rcases step_capture h hreset with hkept | ⟨r, v, rest, he, rfl⟩
  · exact ⟨.inl (congrArg Operands.addr hkept), .inl (congrArg Operands.offset hkept), .inl (congrArg Operands.size hkept)⟩
  · cases r with
    | addr => exact ⟨.inr ⟨v, rest, he, rfl⟩, .inl rfl, .inl rfl⟩
    | offset => exact ⟨.inl rfl, .inr ⟨v, rest, he, rfl⟩, .inl rfl⟩
    | size => exact ⟨.inl rfl, .inl rfl, .inr ⟨v, rest, he, rfl⟩⟩
    | cmd | result | status | reserved18 | reserved1C => exact ⟨.inl rfl, .inl rfl, .inl rfl⟩

end Sys2Proof.Machine
end

