-- ==== Sys2Proof/Proofs/HostAccesses.lean ====
section
/-! PROOFS. The host's register and byte accesses (10_state R17 to R28, 20_memory R54), and which steps are refused. -/

namespace Sys2Proof.Machine

/-! ### Which register an access reaches -/

/-- An aligned word access in the window reaches a register (10_state R18). -/
theorem regOf_aligned {off : Word} (h : off.toNat % 4 = 0 ∧ off.toNat < 32) : ∃ r, regOf .word off = .ok r := by
  obtain ⟨r, hr⟩ := (regAt_isSome_iff off).2 h
  exact ⟨r, by rw [regAt_eq_some hr]; exact regOf_word r⟩

/-- Any other access that touches the window is a window access (10_state R18). -/
theorem regOf_touching {width : Width} {off : Word} (h : ¬ (width = .word ∧ off.toNat % 4 = 0 ∧ off.toNat < 32))
    (ht : ∃ k, k < width.bytes ∧ (off + BitVec.ofNat 32 k).toNat < 32) : regOf width off = .error .windowAccess := by
  rw [regOf_error h, if_pos ((touchesWindow_iff width off).2 ht)]

/-- An access that reaches no register is refused under one of two names (10_state R18). -/
theorem regOf_error_cases {width : Width} {off : Word} (h : ¬ (width = .word ∧ off.toNat % 4 = 0 ∧ off.toNat < 32)) :
    regOf width off = .error .windowAccess ∨ regOf width off = .error .noRegisterThere := by
  rw [regOf_error h]
  split
  · exact .inl rfl
  · exact .inr rfl

/-! ### The host's transactions, one rule per outcome -/

theorem hostRegRead_ok {width : Width} {off : Word} {r : Reg} (h : regOf width off = .ok r) (s : State) :
    hostRegRead width off s = .next { s with hostReads := readReg r s :: s.hostReads } := by
  simp [hostRegRead, h]

theorem hostRegRead_error {width : Width} {off : Word} {e : Refusal} (h : regOf width off = .error e) (s : State) :
    hostRegRead width off s = .refused e := by
  simp [hostRegRead, h]

theorem hostRegWrite_ok {width : Width} {off : Word} {r : Reg} (h : regOf width off = .ok r) (v : Word) (s : State) :
    hostRegWrite width off v s = if r = .cmd then commandWrite v s else .next (writeReg r v s) := by
  cases r <;> simp [hostRegWrite, h]

theorem hostRegWrite_error {width : Width} {off : Word} {e : Refusal} (h : regOf width off = .error e) (v : Word) (s : State) :
    hostRegWrite width off v s = .refused e := by
  simp [hostRegWrite, h]

/-- A CMD write of any word, legal or not, answers a next state (40_dispatch R70). -/
theorem commandWrite_next (w : Word) (s : State) : ∃ t, commandWrite w s = .next t := by
  unfold commandWrite
  split
  · exact exec_next _ s
  · exact ⟨_, rfl⟩

theorem hostRegWrite_next {width : Width} {off : Word} {r : Reg} (h : regOf width off = .ok r) (v : Word) (s : State) :
    ∃ t, hostRegWrite width off v s = .next t := by
  rw [hostRegWrite_ok h]
  split
  · exact commandWrite_next v s
  · exact ⟨_, rfl⟩

theorem hostStore_outside {a : Word} {s : State} (h : inWindow s.platform a = false) (v : Byte) :
    hostStore a v s = .next { s with mem := s.mem.write a v } := by
  simp [hostStore, h]

theorem hostStore_window {a : Word} {s : State} (h : inWindow s.platform a = true) (v : Byte) :
    hostStore a v s = .refused .windowAccess := by
  simp [hostStore, h]

theorem hostLoad_outside {a : Word} {s : State} (h : inWindow s.platform a = false) :
    hostLoad a s = .next { s with hostReads := (s.mem.read a).setWidth 32 :: s.hostReads } := by
  simp [hostLoad, h]

theorem hostLoad_window {a : Word} {s : State} (h : inWindow s.platform a = true) :
    hostLoad a s = .refused .windowAccess := by
  simp [hostLoad, h]

/-- With the engine IDLE, a word read at a register's offset gives its value back and changes nothing else (10_state R37). -/
theorem step_regRead (r : Reg) {s : State} {rest : List Event} (hidle : s.engine = .idle)
    (he : s.events = .host (.regRead .word r.offsetOf) :: rest) :
    step s = .next { s with events := rest, hostReads := readReg r s :: s.hostReads } := by
  rw [step_host hidle he]
  exact hostRegRead_ok (regOf_word r) { s with events := rest }

/-- With the engine IDLE, a word write at the offset of any register but CMD is `writeReg` (10_state R20 to R24, R28). -/
theorem step_regWrite {r : Reg} (hr : r ≠ .cmd) {s : State} {v : Word} {rest : List Event} (hidle : s.engine = .idle)
    (he : s.events = .host (.regWrite .word r.offsetOf v) :: rest) :
    step s = .next (writeReg r v { s with events := rest }) := by
  rw [step_host hidle he]
  exact (hostRegWrite_ok (regOf_word r) v { s with events := rest }).trans (if_neg hr)

/-! ### Register accesses -/

/-- Settles O34, register by register. -/
theorem registerReadsHaveNoSideEffect : Obligations.RegisterReadsHaveNoSideEffect := by
  unfold Obligations.RegisterReadsHaveNoSideEffect
  intro s off rest hidle he
  refine ⟨?_, ?_, ?_, ?_, ?_, ?_, ?_⟩
  · rintro rfl; exact step_regRead .cmd hidle he
  · rintro rfl; exact step_regRead .addr hidle he
  · rintro rfl; exact step_regRead .offset hidle he
  · rintro rfl; exact step_regRead .size hidle he
  · rintro rfl; exact step_regRead .result hidle he
  · rintro rfl; exact step_regRead .status hidle he
  · rintro (rfl | rfl)
    · exact step_regRead .reserved18 hidle he
    · exact step_regRead .reserved1C hidle he

/-- Settles O35, register by register. -/
theorem registerWritesReachOperandRegistersOnly : Obligations.RegisterWritesReachOperandRegistersOnly := by
  unfold Obligations.RegisterWritesReachOperandRegistersOnly
  intro s off v rest hidle he
  refine ⟨?_, ?_, ?_, ?_⟩
  · rintro rfl; exact step_regWrite (r := .addr) (by decide) hidle he
  · rintro rfl; exact step_regWrite (r := .offset) (by decide) hidle he
  · rintro rfl; exact step_regWrite (r := .size) (by decide) hidle he
  · rintro (rfl | rfl | rfl | rfl)
    · exact step_regWrite (r := .result) (by decide) hidle he
    · exact step_regWrite (r := .status) (by decide) hidle he
    · exact step_regWrite (r := .reserved18) (by decide) hidle he
    · exact step_regWrite (r := .reserved1C) (by decide) hidle he

/-- Settles O36, from O34 and O35 at the two reserved offsets. -/
theorem reservedOffsetsReadZeroAndIgnoreWrites : Obligations.ReservedOffsetsReadZeroAndIgnoreWrites := by
  unfold Obligations.ReservedOffsetsReadZeroAndIgnoreWrites
  intro s off v rest hidle hoff
  constructor
  · intro he
    obtain ⟨-, -, -, -, -, -, hreserved⟩ := registerReadsHaveNoSideEffect s off rest hidle he
    exact hreserved hoff
  · intro he
    obtain ⟨-, -, -, hignored⟩ := registerWritesReachOperandRegistersOnly s off v rest hidle he
    exact hignored (.inr (.inr hoff))

/-- Settles O37, by whether the access reaches a register. -/
theorem onlyAlignedWordAccessesReachTheWindow : Obligations.OnlyAlignedWordAccessesReachTheWindow := by
  unfold Obligations.OnlyAlignedWordAccessesReachTheWindow
  intro s width off v rest hidle he
  constructor
  · rintro ⟨rfl, haligned⟩
    obtain ⟨r, hr⟩ := regOf_aligned haligned
    rcases he with he | he <;> rw [step_host hidle he]
    · exact ⟨_, hostRegRead_ok hr _⟩
    · exact hostRegWrite_next hr v _
  · intro hbad htouches
    have herror := regOf_touching hbad htouches
    rcases he with he | he <;> rw [step_host hidle he]
    · exact hostRegRead_error herror _
    · exact hostRegWrite_error herror v _

/-- Settles O46, register by register. -/
theorem resetRegistersReadZero : Obligations.ResetRegistersReadZero := by
  unfold Obligations.ResetRegistersReadZero
  exact ⟨fun r => by cases r <;> rfl, rfl⟩

/-! ### Byte accesses -/

/-- Settles O38: a store is one write to the one memory, a load one read of it, and the window check comes first. -/
theorem hostByteAccesses : Obligations.HostByteAccesses := by
  unfold Obligations.HostByteAccesses
  intro s a v rest hidle
  refine ⟨fun he hout => ?_, fun he hout => ?_, fun he hin => ?_⟩
  · refine ⟨s.mem.write a v, ?_, Memory.read_write_same _ _ _, fun b hb => Memory.read_write_other _ _ hb⟩
    rw [step_host hidle he]
    exact hostStore_outside (s := { s with events := rest }) hout v
  · rw [step_host hidle he]
    exact hostLoad_outside (s := { s with events := rest }) hout
  · rcases he with he | he <;> rw [step_host hidle he]
    · exact hostStore_window (s := { s with events := rest }) hin v
    · exact hostLoad_window (s := { s with events := rest }) hin

/-! ### What a step refuses -/

/-- While a command is in progress the host's next transaction waits (40_dispatch R69). -/
theorem step_host_waits {s : State} {x : Transaction} {rest : List Event} (hbusy : s.engine ≠ .idle)
    (he : s.events = .host x :: rest) : step s = .next (engineStep s) := by
  simp [step, he, performEvent, hbusy]

/-- An issued CMD write never stops a step: it waits, or it begins a command (40_dispatch R69). -/
theorem step_issue {s : State} {w : Word} {rest : List Event} (he : s.events = .issue w :: rest) :
    step s = .next (if s.engine = .idle then beginCommand w { s with events := rest } else engineStep s) := by
  by_cases hidle : s.engine = .idle <;> simp [step, he, performEvent, hidle]

theorem outsideAccess_window {a : OutsideAccess} {s : State} (h : inWindow s.platform a.address = true) :
    outsideAccess a s = .refused .outsideWindowAccess := by
  simp [outsideAccess, h]

theorem outsideAccess_next {a : OutsideAccess} {s : State} (h : inWindow s.platform a.address = false) :
    ∃ t, outsideAccess a s = .next t := by
  cases hraces : races a s <;> simp [outsideAccess, h, hraces]

/-- A register read or write either answers a next state or is refused under one of the two names of log entry 13. -/
theorem hostTransaction_register {x : Transaction} {width : Width} {off v : Word}
    (hx : x = .regRead width off ∨ x = .regWrite width off v) (s : State) :
    (∃ t, hostTransaction x s = .next t) ∨
      (¬ (width = .word ∧ off.toNat % 4 = 0 ∧ off.toNat < 32) ∧
        (hostTransaction x s = .refused .windowAccess ∨ hostTransaction x s = .refused .noRegisterThere)) := by
  by_cases haligned : width = .word ∧ off.toNat % 4 = 0 ∧ off.toNat < 32
  · obtain ⟨rfl, haligned⟩ := haligned
    obtain ⟨r, hr⟩ := regOf_aligned haligned
    rcases hx with rfl | rfl
    · exact .inl ⟨_, hostRegRead_ok hr s⟩
    · exact .inl (hostRegWrite_next hr v s)
  · refine .inr ⟨haligned, ?_⟩
    rcases hx with rfl | rfl
    · exact (regOf_error_cases haligned).imp (hostRegRead_error · s) (hostRegRead_error · s)
    · exact (regOf_error_cases haligned).imp (hostRegWrite_error · v s) (hostRegWrite_error · v s)

/-- A byte access either answers a next state or is refused in the window. -/
theorem hostTransaction_byte {x : Transaction} {a : Word} {v : Byte} (hx : x = .loadByte a ∨ x = .storeByte a v) (s : State) :
    (∃ t, hostTransaction x s = .next t) ∨ (inWindow s.platform a = true ∧ hostTransaction x s = .refused .windowAccess) := by
  cases hwindow : inWindow s.platform a with
  | false =>
    rcases hx with rfl | rfl
    · exact .inl ⟨_, hostLoad_outside hwindow⟩
    · exact .inl ⟨_, hostStore_outside hwindow v⟩
  | true =>
    rcases hx with rfl | rfl
    · exact .inr ⟨rfl, hostLoad_window hwindow⟩
    · exact .inr ⟨rfl, hostStore_window hwindow v⟩

/-- With the engine IDLE, a host transaction answers a next state or is refused by name: a register access that is no aligned word in
the window, or a byte access in the window. -/
theorem step_host_idle_cases {s : State} {x : Transaction} {rest : List Event} (hidle : s.engine = .idle)
    (he : s.events = .host x :: rest) :
    (∃ t, step s = .next t) ∨
    (∃ width off v, (x = .regRead width off ∨ x = .regWrite width off v) ∧
      ¬ (width = .word ∧ off.toNat % 4 = 0 ∧ off.toNat < 32) ∧
      (step s = .refused .windowAccess ∨ step s = .refused .noRegisterThere)) ∨
    (∃ a v, (x = .loadByte a ∨ x = .storeByte a v) ∧ inWindow s.platform a = true ∧ step s = .refused .windowAccess) := by
  rw [step_host hidle he]
  cases x with
  | regRead width off =>
    exact (hostTransaction_register (v := 0#32) (.inl rfl) _).imp id fun h => .inl ⟨width, off, 0#32, .inl rfl, h⟩
  | regWrite width off v =>
    exact (hostTransaction_register (.inr rfl) _).imp id fun h => .inl ⟨width, off, v, .inr rfl, h⟩
  | loadByte a => exact (hostTransaction_byte (v := 0#8) (.inl rfl) _).imp id fun h => .inr ⟨a, 0#8, .inl rfl, h⟩
  | storeByte a v => exact (hostTransaction_byte (.inr rfl) _).imp id fun h => .inr ⟨a, v, .inr rfl, h⟩

/-- Settles O42, by cases on the next event. -/
theorem stepRefusesNamedAccessesOnly : Obligations.StepRefusesNamedAccessesOnly := by
  unfold Obligations.StepRefusesNamedAccessesOnly
  intro s
  rcases he : s.events with _ | ⟨e, rest⟩
  · exact .inl ⟨engineStep s, by simp [step, he]⟩
  · cases e with
    | host x =>
      by_cases hidle : s.engine = .idle
      · rcases step_host_idle_cases hidle he with hnext | ⟨width, off, v, hx, hrefused⟩ | ⟨a, v, hx, hrefused⟩
        · exact .inl hnext
        · exact .inr ⟨_, rest, rfl, .inl ⟨hidle, width, off, v, hx.imp (congrArg _) (congrArg _), hrefused⟩⟩
        · exact .inr ⟨_, rest, rfl, .inr (.inl ⟨hidle, a, v, hx.imp (congrArg _) (congrArg _), hrefused⟩)⟩
      · exact .inl ⟨_, step_host_waits hidle he⟩
    | issue w => exact .inl ⟨_, step_issue he⟩
    | engine => exact .inl ⟨_, by rw [step, he]; rfl⟩
    | outside a =>
      rw [step_outside he]
      cases hwindow : inWindow s.platform a.address with
      | false => exact .inl (outsideAccess_next (s := { s with events := rest }) hwindow)
      | true =>
        have hrefused := outsideAccess_window (s := { s with events := rest }) hwindow
        exact .inr ⟨_, rest, rfl, .inr (.inr ⟨a, rfl, hwindow, hrefused⟩)⟩
    | reset => exact .inl ⟨_, by rw [step, he]; rfl⟩

end Sys2Proof.Machine
end

