-- ==== Sys2Proof/Proofs/IssueAndRace.lean ====
section
/-! PROOFS. A CMD write whose engine steps are taken one by one (40_dispatch R69, R75), and an outside access to the region of a command that has no end (20_memory R48, log entry 9). -/

namespace Sys2Proof.Machine

/-! ### The work a command word starts, check by check (40_dispatch R75) -/

theorem workOf_badSize {w : Word} {i : Instr} {ops : Operands} (hw : decodeCmd w = .ok i) (hsize : ¬ sizeOk i ops = true)
    (p : Platform) : workOf w ops p = .failing .sizeRange := by
  simp [workOf, hw, checkCommand_badSize.2 (by simpa using hsize)]

theorem workOf_inadmissible {w : Word} {i : Instr} {ops : Operands} {p : Platform} (hw : decodeCmd w = .ok i)
    (hsize : sizeOk i ops = true) (hadm : ¬ AllAdmitted p (commandRegion i ops).base (commandRegion i ops).len) :
    workOf w ops p = .stuck i ops := by
  simp [workOf, hw, checkCommand_inadmissible.2 ⟨hsize, hadm⟩]

theorem workOf_encode {w : Word} {ops : Operands} {p : Platform} (hw : decodeCmd w = .ok .encode)
    (hsize : sizeOk .encode ops = true) (hadm : AllAdmitted p (encodeRegion ops).base (encodeRegion ops).len) :
    workOf w ops p = .encode ops .none .start := by
  simp [workOf, hw, checkCommand_run.2 ⟨hsize, hadm⟩]

theorem workOf_decode {w : Word} {ops : Operands} {p : Platform} (hw : decodeCmd w = .ok .decode)
    (hsize : sizeOk .decode ops = true) (hadm : AllAdmitted p (decodeRegion ops).base (decodeRegion ops).len) :
    workOf w ops p = .decode ops .none (.read 0) := by
  simp [workOf, hw, checkCommand_run.2 ⟨hsize, hadm⟩]

/-- OVERHEAD has no check to fail: no size bound, and an empty region. -/
theorem workOf_overhead {w : Word} (hw : decodeCmd w = .ok .overhead) (ops : Operands) (p : Platform) :
    workOf w ops p = .overhead := by
  have hadm : AllAdmitted p (commandRegion .overhead ops).base (commandRegion .overhead ops).len :=
    fun k hk => absurd hk (Nat.not_lt_zero k)
  simp [workOf, hw, checkCommand_run.2 ⟨rfl, hadm⟩]

/-- Settles O51: what the word starts, check by check. -/
theorem issuedCommandMakesTheEngineBusy : Obligations.IssuedCommandMakesTheEngineBusy := by
  unfold Obligations.IssuedCommandMakesTheEngineBusy
  intro s w rest hidle he
  refine ⟨workOf w (capture s) s.platform, ?_, workOf_Ok _ _ _, fun e hw => workOf_error hw _ _, fun hw => ?_, fun hw => ?_,
    fun hw => workOf_overhead hw _ _⟩
  · rw [step_issue he, if_pos hidle]
    rfl
  · have hsize := sizeOk_encode (capture s)
    refine ⟨fun hbad => ?_, fun hn hadm => ?_, fun hn hadm => ?_⟩
    · exact workOf_badSize hw (fun hok => Nat.not_le.2 hbad (hsize.1 hok)) _
    · exact workOf_inadmissible hw (hsize.2 hn) hadm
    · exact workOf_encode hw (hsize.2 hn) hadm
  · have hsize := sizeOk_decode (capture s)
    refine ⟨fun hbad => ?_, fun hlow hhigh hadm => ?_, fun hlow hhigh hadm => ?_⟩
    · refine workOf_badSize hw (fun hok => ?_) _
      obtain ⟨hlow, hhigh⟩ := hsize.1 hok
      rcases hbad with hbad | hbad
      · exact Nat.not_le.2 hbad hlow
      · exact Nat.not_le.2 hbad hhigh
    · exact workOf_inadmissible hw (hsize.2 ⟨hlow, hhigh⟩) hadm
    · exact workOf_decode hw (hsize.2 ⟨hlow, hhigh⟩) hadm

/-! ### An outside access to the region of a stuck or HUNG command -/

/-- Free bytes drawn into a command's region: one draw per byte, and every other byte as before. -/
theorem drawBytes_region {r : Region} (hlen : r.len ≤ 2 ^ 32) (d : Nat) (m : Memory) :
    (∀ k, k < r.len → (drawBytes r.base d r.len m).read (blk r.base k) = Config.freeByte (d + k)) ∧
      UntouchedOutside m (drawBytes r.base d r.len m) r.base r.len :=
  ⟨fun _ hk => drawBytes_read r.base d hlen m hk, drawBytes_untouched r.base d r.len m⟩

/-- Settles O56: the reply to the access, then the region redrawn at once. -/
theorem outsideAccessToAStuckOrHungRegion : Obligations.OutsideAccessToAStuckOrHungRegion := by
  unfold Obligations.OutsideAccessToAStuckOrHungRegion
  intro s a rest r he hwindow hraces hnoEnd
  have hlen : r.len ≤ 2 ^ 32 := by
    rcases hnoEnd with ⟨i, ops, -, rfl⟩ | ⟨ops, -, rfl⟩
    · exact commandRegion_len_le i ops
    · exact commandRegion_len_le .decode ops
  have hstep : step s = .next (redrawRegion r (racingReply a { s with events := rest })) := by
    rw [step_racing he hwindow hraces, racingAccess_of_noEnd (s := { s with events := rest }) a hnoEnd]
  constructor
  · rintro x rfl
    exact ⟨_, hstep, drawBytes_region hlen (s.draws + 1) s.mem⟩
  · rintro x v rfl
    exact ⟨_, hstep, drawBytes_region hlen s.draws s.mem⟩

end Sys2Proof.Machine
end

