-- ==== Sys2Proof/Proofs/NoEndAndWindow.lean ====
section
/-! PROOFS. A command without an end: a stuck or HUNG engine that only a reset moves (20_memory R42, 42_decoder R104), and a region over the register window (20_memory R54). -/

namespace Sys2Proof.Machine

/-! ### A stuck or HUNG engine -/

theorem State.NeverCompletes.not_idle {s : State} (h : s.NeverCompletes) : s.engine ≠ .idle := by
  rcases h with ⟨i, ops, h⟩ | ⟨ops, h⟩ <;> simp [h]

/-- An outside access to the region of a stuck or HUNG command redraws it and leaves the engine as it is (log entry 9). -/
theorem racingAccess_engine_of_neverCompletes (a : OutsideAccess) {s : State} (h : s.NeverCompletes) :
    (racingAccess a s).engine = s.engine := by
  rcases racingAccess_cases a s with ⟨ops, race, phase, he, -⟩ | ⟨ops, race, phase, he, -⟩ | ⟨he, -⟩
  · simp [State.NeverCompletes, he] at h
  · simp [State.NeverCompletes, he] at h
  · exact he

/-- Everything a step that is no reset can do to a stuck or HUNG command: take an event off the list, or let an outside agent access
memory. -/
theorem step_of_neverCompletes {s t : State} (hn : s.NeverCompletes) (h : step s = .next t)
    (hreset : ∀ rest, s.events ≠ .reset :: rest) :
    (∃ rest, t = { s with events := rest }) ∨
      ∃ a rest, t = racingAccess a { s with events := rest } ∨ t = plainAccess a { s with events := rest } := by
  cases step_cases h with
  | engineAlone _ => exact .inl ⟨s.events, engineStep_of_neverCompletes hn⟩
  | hostWaits _ _ _ _ _ => exact .inl ⟨s.events, engineStep_of_neverCompletes hn⟩
  | engineEvent rest _ => exact .inl ⟨rest, engineStep_of_neverCompletes (s := { s with events := rest }) hn⟩
  | command _ _ _ _ hidle _ _ _ | illegal _ _ _ hidle _ _ | regWrite _ _ _ hidle _ _ | regRead _ _ hidle _
  | store _ _ _ hidle _ _ | load _ _ hidle _ _ | issue _ _ hidle _ => exact absurd hidle hn.not_idle
  | racing a rest _ _ _ => exact .inr ⟨a, rest, .inl rfl⟩
  | plain a rest _ _ _ => exact .inr ⟨a, rest, .inr rfl⟩
  | reset rest he => exact absurd he (hreset rest)

/-- Settles O32: the engine has no step to take, the host waits, and an outside access reaches neither the engine nor a register. -/
theorem onlyResetLeavesStuckOrHung : Obligations.OnlyResetLeavesStuckOrHung := by
  unfold Obligations.OnlyResetLeavesStuckOrHung
  intro s t hn h hreset
  rcases step_of_neverCompletes hn h hreset with ⟨rest, rfl⟩ | ⟨a, rest, rfl | rfl⟩
  · exact ⟨rfl, rfl, rfl, rfl, rfl, rfl, rfl⟩
  · have hengine := racingAccess_engine_of_neverCompletes (s := { s with events := rest }) a hn
    obtain ⟨haddr, hoffset, hsize, hresult, hstatus, -, -, hreads⟩ := racingAccess_keeps a { s with events := rest }
    exact ⟨hengine, hresult, hstatus, hreads, haddr, hoffset, hsize⟩
  · obtain ⟨haddr, hoffset, hsize, hresult, hstatus, hengine, -, -, hreads, -⟩ := plainAccess_keeps a { s with events := rest }
    exact ⟨hengine, hresult, hstatus, hreads, haddr, hoffset, hsize⟩

/-! ### A region over the register window -/

/-- A command whose admission check fails is stuck (20_memory R42); OVERHEAD has an empty region, so its check cannot fail. -/
theorem exec_inadmissible {i : Instr} {s : State} (h : checkCommand i (capture s) s.platform = .inadmissible) :
    exec i s = .next (stick i (capture s) s) := by
  cases i with
  | encode => simp [exec, execEncode, h]
  | decode => simp [exec, execDecode, h]
  | overhead =>
    obtain ⟨-, hadm⟩ := checkCommand_inadmissible.1 h
    exact absurd (fun k hk => absurd hk (Nat.not_lt_zero k)) hadm

/-- Settles O40: an address in the window is not admitted, so the admission check fails. -/
theorem regionOverTheWindowIsStuck : Obligations.RegionOverTheWindowIsStuck := by
  unfold Obligations.RegionOverTheWindowIsStuck
  intro i s k hsize hk hwindow
  have hadm : ¬ AllAdmitted s.platform (commandRegion i (capture s)).base (commandRegion i (capture s)).len :=
    fun hall => by simpa [not_admitted_of_inWindow hwindow] using hall k hk
  exact exec_inadmissible (checkCommand_inadmissible.2 ⟨hsize, hadm⟩)

end Sys2Proof.Machine
end

