-- ==== Sys2Proof/Proofs/OutsideAccesses.lean ====
section
/-! PROOFS. An outside agent's access next to a command in progress: ordinary away from its region, a mark on the command inside it (20_memory R48). -/

namespace Sys2Proof.Machine

/-- An outside access away from the window and from every region in use is an ordinary one (log entry 12). -/
theorem step_plain {s : State} {a : OutsideAccess} {rest : List Event} (he : s.events = .outside a :: rest)
    (hw : inWindow s.platform a.address = false) (hr : races a s = false) :
    step s = .next (plainAccess a { s with events := rest }) := by
  have hr' : races a { s with events := rest } = false := hr
  rw [step_outside he]
  simp [outsideAccess, hw, hr']

/-- An outside access in the register window is refused (92_eei_decisions D27). -/
theorem step_outside_window {s : State} {a : OutsideAccess} {rest : List Event} (he : s.events = .outside a :: rest)
    (hw : inWindow s.platform a.address = true) : step s = .refused .outsideWindowAccess := by
  rw [step_outside he]
  exact outsideAccess_window (s := { s with events := rest }) hw

/-- Settles O50: a read of the one memory, a write to it, and the window check before either. -/
theorem outsideAccessElsewhereIsOrdinary : Obligations.OutsideAccessElsewhereIsOrdinary := by
  unfold Obligations.OutsideAccessElsewhereIsOrdinary
  intro s a v rest
  refine ⟨fun he hw hr => step_plain he hw hr, fun he hw hr => ?_, fun he hw => ?_⟩
  · exact ⟨s.mem.write a v, step_plain he hw hr, Memory.read_write_same _ _ _, fun b hb => Memory.read_write_other _ _ hb⟩
  · rcases he with he | he
    · exact step_outside_window he hw
    · exact step_outside_window he hw

/-- A racing access to the region of an ENCODE past its checks marks it and draws the reply (20_memory R48). -/
theorem racingAccess_encode {s : State} {ops : Operands} {race : Race} {phase : EncodePhase}
    (h : s.engine = .busy (.encode ops race phase)) (a : OutsideAccess) :
    racingAccess a s = racingReply a { s with engine := .busy (.encode ops (race.after a) phase) } := by
  simp [racingAccess, h]

/-- A racing access to the region of a DECODE past its checks marks it and draws the reply (20_memory R48). -/
theorem racingAccess_decode {s : State} {ops : Operands} {race : Race} {phase : DecodePhase}
    (h : s.engine = .busy (.decode ops race phase)) (a : OutsideAccess) :
    racingAccess a s = racingReply a { s with engine := .busy (.decode ops (race.after a) phase) } := by
  simp [racingAccess, h]

/-- Settles O48, by command and by kind of access: what the race is marked as, and the reply. -/
theorem outsideAccessRacesTheCommand : Obligations.OutsideAccessRacesTheCommand := by
  unfold Obligations.OutsideAccessRacesTheCommand
  intro s a rest ops race he hw hr
  have hstep := step_racing he hw hr
  constructor
  · intro phase hengine
    rw [hstep, racingAccess_encode (s := { s with events := rest }) hengine]
    constructor
    · rintro x rfl
      rw [Race.after_read]
      rfl
    · rintro x v rfl
      rw [Race.after_write]
      rfl
  · intro phase hengine
    rw [hstep, racingAccess_decode (s := { s with events := rest }) hengine]
    constructor
    · rintro x rfl
      rw [Race.after_read]
      rfl
    · rintro x v rfl
      rw [Race.after_write]
      rfl

end Sys2Proof.Machine
end

