-- ==== Sys2Proof/Proofs/EngineMemory.lean ====
section
/-! PROOFS. What one engine step does to memory (20_memory R43, R46), and how a raced command ends (20_memory R48). -/

namespace Sys2Proof.Machine

theorem engineStep_encode {s : State} {ops : Operands} {race : Race} {phase : EncodePhase}
    (h : s.engine = .busy (.encode ops race phase)) : engineStep s = encodeStep ops race phase s := by
  simp [engineStep, h]

theorem engineStep_decode {s : State} {ops : Operands} {race : Race} {phase : DecodePhase}
    (h : s.engine = .busy (.decode ops race phase)) : engineStep s = decodeStep ops race phase s := by
  simp [engineStep, h]

/-! ### Memory after one step, phase by phase -/

section
variable {ops : Operands} {race : Race} (s : State)

theorem encodeStep_start_mem (hr : race ≠ .write) :
    (encodeStep ops race .start s).mem = s.mem.write (blk (encodeBase ops) 0) 0x00#8 := by
  simp [encodeStep, hr]

theorem encodeStep_mark_mem (hr : race ≠ .write) (k next : Nat) :
    (encodeStep ops race (.mark k next) s).mem = s.mem.write (blk (encodeBase ops) k) (marker k next) := by
  simp [encodeStep, hr]

/-- A scan writes nothing, but for the one that ends a raced ENCODE. -/
theorem encodeStep_scan_mem (hr : race ≠ .write) {next : Nat} (h : race = .none ∨ next ≠ 0) (k : Nat) :
    (encodeStep ops race (.scan k next) s).mem = s.mem := by
  by_cases hn : next = 0
  · obtain rfl := h.resolve_right (not_not_intro hn)
    simp [encodeStep, hn]
  · by_cases hz : s.mem.read (blk (encodeBase ops) k) = 0x00#8 <;> simp [encodeStep, hr, hn, hz]

/-- The write of a clear is its only one, but where it ends a raced DECODE. -/
theorem decodeStep_clear_mem (hr : race ≠ .write) {v : Byte} (h : race = .none ∨ v ≠ 0x00#8) (c : Nat) :
    (decodeStep ops race (.clear c v) s).mem = s.mem.write (blk (decodeBase ops) c) 0x00#8 := by
  by_cases hv : v = 0x00#8
  · obtain rfl := h.resolve_right (not_not_intro hv)
    simp [decodeStep, hv]
  · simp [decodeStep, hr, hv]

/-- A loop test writes nothing, but for the one that ends a raced DECODE. -/
theorem decodeStep_read_mem (hr : race ≠ .write) {c : Nat} (h : race = .none ∨ c < ops.size.toNat) :
    (decodeStep ops race (.read c) s).mem = s.mem := by
  by_cases hc : c < ops.size.toNat
  · simp [decodeStep, hr, hc]
  · obtain rfl := h.resolve_right hc
    simp [decodeStep, hc]

end

/-! ### Nothing outside the region -/

theorem settleRace_untouched (race : Race) (r : Region) (s : State) :
    UntouchedOutside s.mem (settleRace race r s).mem r.base r.len := by
  cases race with
  | none => exact UntouchedOutside.refl _ _ _
  | read => exact drawBytes_untouched _ _ _ _
  | write => exact drawBytes_untouched _ _ _ _

/-- One engine step of ENCODE, raced or not, writes in its region only (20_memory R46). -/
theorem encodeStep_untouched {ops : Operands} {phase : EncodePhase} (hok : phase.Ok ops.size.toNat) (race : Race) (s : State) :
    UntouchedOutside s.mem (encodeStep ops race phase s).mem (encodeBase ops) (ops.size.toNat + 1) := by
  by_cases hr : race = .write
  · subst hr
    rw [encodeStep_write]
    exact drawBytes_untouched _ _ _ _
  · rcases encodeStep_cases ops hr phase s with ⟨-, h⟩ | ⟨_, -, h⟩ | ⟨_, _, -, -, -, h⟩ | ⟨_, _, -, -, -, h⟩ |
      ⟨k, next, rfl, h⟩ <;> rw [h]
    · exact UntouchedOutside.write s.mem (Nat.zero_lt_succ _) 0x00#8
    · exact settleRace_untouched race (encodeRegion ops) s
    · exact UntouchedOutside.refl _ _ _
    · exact UntouchedOutside.refl _ _ _
    · obtain ⟨hk, -, -⟩ := hok
      exact UntouchedOutside.write s.mem (Nat.lt_succ_of_le hk) _

/-- One engine step of DECODE, raced or not, writes in its region only (20_memory R46). -/
theorem decodeStep_untouched {ops : Operands} {phase : DecodePhase} (hok : phase.Ok ops.size.toNat) (race : Race) (s : State) :
    UntouchedOutside s.mem (decodeStep ops race phase s).mem (decodeBase ops) ops.size.toNat := by
  by_cases hr : race = .write
  · subst hr
    rcases decodeStep_write ops phase s with h | h <;> rw [h]
    · exact drawBytes_untouched _ _ _ _
    · exact drawBytes_untouched _ _ _ _
  · rcases decodeStep_cases ops hr phase s with ⟨_, -, -, h⟩ | ⟨_, -, -, h⟩ | ⟨c, rfl, h⟩ | ⟨c, _, rfl, -, h⟩ <;> rw [h]
    · exact UntouchedOutside.refl _ _ _
    · exact settleRace_untouched race (decodeRegion ops) s
    · exact (UntouchedOutside.write s.mem hok 0x00#8).trans
        (settleRace_untouched race (decodeRegion ops) { s with mem := s.mem.write (blk (decodeBase ops) c) 0x00#8 })
    · exact UntouchedOutside.write s.mem hok 0x00#8

/-- A step of OVERHEAD, of a failing or of a stuck command makes no memory access (20_memory R42, 40_dispatch R76). -/
theorem engineStep_mem_of_noAccess {s : State} {wk : Work} (hengine : s.engine = .busy wk)
    (hwk : wk = .overhead ∨ (∃ c, wk = .failing c) ∨ ∃ i ops, wk = .stuck i ops) : (engineStep s).mem = s.mem := by
  rcases hwk with rfl | ⟨c, rfl⟩ | ⟨i, ops, rfl⟩ <;> simp [engineStep, hengine]

/-- Settles O53: by command and phase, with the bounds on the working values from the invariant. -/
theorem engineStepTouchesOneRegionByte : Obligations.EngineStepTouchesOneRegionByte := by
  unfold Obligations.EngineStepTouchesOneRegionByte
  intro s hinv
  have hok := hinv.engineOk
  refine ⟨fun ops race phase hengine => ?_, fun ops race phase hengine => ?_, fun wk => engineStep_mem_of_noAccess⟩
  · rw [hengine] at hok
    obtain ⟨-, hphase⟩ := hok
    rw [engineStep_encode hengine]
    refine ⟨encodeStep_untouched hphase race s, fun hr => ⟨?_, ?_, ?_⟩⟩
    · rintro rfl a ha
      rw [encodeStep_start_mem s hr, Memory.read_write_other _ _ ha]
    · rintro k next rfl
      obtain ⟨hk, -, -⟩ := hphase
      refine ⟨hk, fun a ha => ?_⟩
      rw [encodeStep_mark_mem s hr, Memory.read_write_other _ _ ha]
    · rintro k next rfl h
      exact encodeStep_scan_mem s hr h k
  · rw [hengine] at hok
    obtain ⟨-, hphase⟩ := hok
    rw [engineStep_decode hengine]
    refine ⟨decodeStep_untouched hphase race s, fun hr => ⟨?_, ?_⟩⟩
    · rintro c v rfl h
      refine ⟨hphase, fun a ha => ?_⟩
      rw [decodeStep_clear_mem s hr h, Memory.read_write_other _ _ ha]
    · rintro c rfl h
      exact decodeStep_read_mem s hr h

/-! ### How a raced command ends -/

/-- Everything one step of a raced ENCODE can do: end it with its region redrawn, or, where outside agents have only read, go on. -/
theorem encodeStep_raced_cases (ops : Operands) {race : Race} (hrace : race ≠ .none) (phase : EncodePhase) (s : State) :
    encodeStep ops race phase s = complete (encodeResult ops) (redrawRegion (encodeRegion ops) s) ∨
    (race ≠ .write ∧ ∃ phase', (encodeStep ops race phase s).engine = .busy (.encode ops race phase')) := by
  by_cases hr : race = .write
  · subst hr
    exact .inl (encodeStep_write ops phase s)
  · rcases encodeStep_cases ops hr phase s with ⟨-, h⟩ | ⟨_, -, h⟩ | ⟨_, _, -, -, -, h⟩ | ⟨_, _, -, -, -, h⟩ | ⟨_, _, -, h⟩ <;>
      rw [h]
    · exact .inr ⟨hr, _, rfl⟩
    · exact .inl (by rw [settleRace_raced hrace])
    · exact .inr ⟨hr, _, rfl⟩
    · exact .inr ⟨hr, _, rfl⟩
    · exact .inr ⟨hr, _, rfl⟩

/-- Everything one step of a raced DECODE can do: complete it with its region redrawn, hang it likewise after a racing write or at a zero
code byte, or, where outside agents have only read, go on. -/
theorem decodeStep_raced_cases {ops : Operands} {race : Race} (hrace : race ≠ .none) {phase : DecodePhase}
    (hok : phase.Ok ops.size.toNat) (s : State) :
    decodeStep ops race phase s = complete (decodeResult ops) (redrawRegion (decodeRegion ops) s) ∨
    (∃ m, UntouchedOutside s.mem m (decodeBase ops) ops.size.toNat ∧
      decodeStep ops race phase s = hang ops (redrawRegion (decodeRegion ops) { s with mem := m }) ∧
      (race = .write ∨ ∃ c, phase = .clear c 0x00#8)) ∨
    (race ≠ .write ∧ ∃ phase', (decodeStep ops race phase s).engine = .busy (.decode ops race phase')) := by
  by_cases hr : race = .write
  · subst hr
    rcases decodeStep_write ops phase s with h | h
    · exact .inr (.inl ⟨s.mem, UntouchedOutside.refl _ _ _, h, .inl rfl⟩)
    · exact .inl h
  · rcases decodeStep_cases ops hr phase s with ⟨_, -, -, h⟩ | ⟨_, -, -, h⟩ | ⟨c, rfl, h⟩ | ⟨_, _, -, -, h⟩ <;> rw [h]
    · exact .inr (.inr ⟨hr, _, rfl⟩)
    · exact .inl (by rw [settleRace_raced hrace])
    · exact .inr (.inl ⟨_, UntouchedOutside.write s.mem hok _, by rw [settleRace_raced hrace], .inr ⟨c, rfl⟩⟩)
    · exact .inr (.inr ⟨hr, _, rfl⟩)

/-- A DECODE that has read its zero code byte hangs, raced or not (42_decoder R104). -/
theorem decodeStep_zeroCode_engine (ops : Operands) (race : Race) (c : Nat) (s : State) :
    (decodeStep ops race (.clear c 0x00#8) s).engine = .hung ops := by
  by_cases hr : race = .write <;> simp [decodeStep, hr]

/-- A DECODE whose cursor has reached the end completes, raced or not (42_decoder R103). -/
theorem decodeStep_atEnd_engine {ops : Operands} {c : Nat} (h : ops.size.toNat ≤ c) (race : Race) (s : State) :
    (decodeStep ops race (.read c) s).engine = .idle := by
  by_cases hr : race = .write
  · simp [decodeStep, hr, racedDecodeHangs_atEnd h]
  · simp [decodeStep, hr, Nat.not_lt.2 h]

/-- A write-raced DECODE whose jump already read leads to the end completes (42_decoder R101; log entry 21). -/
theorem decodeStep_write_jumpToEnd_engine {ops : Operands} {c : Nat} {v : Byte} (hv : v ≠ 0x00#8)
    (h : ops.size.toNat ≤ c + v.toNat) (s : State) : (decodeStep ops .write (.clear c v) s).engine = .idle := by
  simp [decodeStep_write_eq, racedDecodeHangs_jumpToEnd hv h]

/-- A raced ENCODE after its next step (20_memory R48). -/
theorem encodeStep_raced {ops : Operands} {race : Race} (hrace : race ≠ .none) (hn : ops.size.toNat ≤ 254)
    (phase : EncodePhase) {s t : State} (ht : encodeStep ops race phase s = t) :
    (∀ o, t.engine ≠ .hung o) ∧ (race = .write → t.engine = .idle) ∧
      (t.engine = .idle →
        t.result = ops.size + 1#32 ∧ t.status = 0x00000001#32 ∧
        (∀ k, k ≤ ops.size.toNat → t.mem.read (blk (encodeBase ops) k) = Config.freeByte (s.draws + k)) ∧
        UntouchedOutside s.mem t.mem (encodeBase ops) (ops.size.toNat + 1)) := by
  rcases encodeStep_raced_cases ops hrace phase s with h | ⟨hr, phase', h⟩
  · obtain ⟨hfree, huntouched⟩ := drawBytes_region (commandRegion_len_le .encode ops) s.draws s.mem
    cases h.symm.trans ht
    exact ⟨fun o => by simp, fun _ => rfl, fun _ =>
      ⟨encodeResult_setWidth hn, rfl, fun k hk => hfree k (Nat.lt_succ_of_le hk), huntouched⟩⟩
  · rw [ht] at h
    exact ⟨fun o => by simp [h], fun hw => absurd hw hr, fun hidle => by simp [h] at hidle⟩

/-- A raced DECODE after its next step (20_memory R48). -/
theorem decodeStep_raced {ops : Operands} {race : Race} (hrace : race ≠ .none) {phase : DecodePhase}
    (hok : phase.Ok ops.size.toNat) (hlow : 1 ≤ ops.size.toNat) (hhigh : ops.size.toNat ≤ 255) {s t : State}
    (ht : decodeStep ops race phase s = t) :
    (∀ o, t.engine = .hung o → o = ops ∧ (race = .write ∨ ∃ c, phase = .clear c 0x00#8)) ∧
      (race = .write → t.engine = .idle ∨ t.engine = .hung ops) ∧
      (t.engine = .idle → t.result = ops.size - 1#32 ∧ t.status = 0x00000001#32) ∧
      (t.engine = .hung ops → t.result = s.result ∧ t.status = s.status) ∧
      (t.engine = .idle ∨ t.engine = .hung ops →
        (∀ k, k < ops.size.toNat → t.mem.read (blk (decodeBase ops) k) = Config.freeByte (s.draws + k)) ∧
        UntouchedOutside s.mem t.mem (decodeBase ops) ops.size.toNat) := by
  have hdrawn := drawBytes_region (commandRegion_len_le .decode ops) s.draws
  rcases decodeStep_raced_cases hrace hok s with h | ⟨m, hm, h, hwhy⟩ | ⟨hr, phase', h⟩
  · cases h.symm.trans ht
    exact ⟨fun o ho => by simp at ho, fun _ => .inl rfl, fun _ => ⟨decodeResult_setWidth hlow hhigh, rfl⟩,
      fun ho => by simp at ho, fun _ => hdrawn s.mem⟩
  · obtain ⟨hfree, huntouched⟩ := hdrawn m
    cases h.symm.trans ht
    exact ⟨fun o ho => ⟨(Engine.hung.inj ho).symm, hwhy⟩, fun _ => .inr rfl, fun hidle => by simp at hidle,
      fun _ => ⟨rfl, rfl⟩, fun _ => ⟨hfree, hm.trans huntouched⟩⟩
  · rw [ht] at h
    exact ⟨fun o ho => by simp [h] at ho, fun hw => absurd hw hr, fun hidle => by simp [h] at hidle,
      fun ho => by simp [h] at ho, fun hend => by simp [h] at hend⟩

/-- Settles O49: how a raced command's step ends it, and the phases that decide whether a DECODE hangs. -/
theorem racedCommandLeavesFreeBytes : Obligations.RacedCommandLeavesFreeBytes := by
  unfold Obligations.RacedCommandLeavesFreeBytes
  intro s ops race hrace
  refine ⟨fun phase hn hengine => encodeStep_raced hrace hn phase (engineStep_encode hengine).symm,
    fun phase hok hlow hhigh hengine => ?_⟩
  obtain ⟨hhung, hwrite, hcompletes, hhangs, hends⟩ :=
    decodeStep_raced hrace hok hlow hhigh (engineStep_decode hengine).symm
  refine ⟨hhung, hwrite, ?_, ?_, ?_, hcompletes, hhangs, hends⟩ <;> rw [engineStep_decode hengine]
  · rintro c rfl
    exact decodeStep_zeroCode_engine ops race c s
  · rintro c rfl h
    exact decodeStep_atEnd_engine h race s
  · rintro c v rfl rfl hv h
    exact decodeStep_write_jumpToEnd_engine hv h s

end Sys2Proof.Machine
end

