-- ==== Sys2Proof/Proofs/CommandWords.lean ====
section
/-! PROOFS. The command words (30_encoding R56 to R65): decoder and encoder agree, which words are illegal, and what a CMD write of an illegal one does (60_exceptions R129). -/

namespace Sys2Proof

/-! ### Decoder and encoder -/

theorem decodeCmd_encodeCmd (i : Instr) : decodeCmd (encodeCmd i) = .ok i := by
  have hword : Laws.Encoding.Statement i := match i with
    | .encode => Laws.Encoding.encode
    | .decode => Laws.Encoding.decode
    | .overhead => Laws.Encoding.overhead
  obtain ⟨-, -, -, hdecode⟩ := hword
  exact hdecode

/-- The decoder reads a command from its own word only (30_encoding R59 to R61). -/
theorem eq_encodeCmd_of_decodeCmd {w : Word} {i : Instr} (h : decodeCmd w = .ok i) : w = encodeCmd i := by
  rw [decodeCmd_eq] at h
  split at h
  · next hw => cases h; exact hw
  · split at h
    · next hw => cases h; exact hw
    · split at h
      · next hw => cases h; exact hw
      · cases h

/-- Settles O3: encoding a command and decoding it gives it back, and no other word decodes to it. -/
theorem encodeAndDecodeAgree : Obligations.EncodeAndDecodeAgree := by
  unfold Obligations.EncodeAndDecodeAgree
  intro w i
  constructor
  · exact eq_encodeCmd_of_decodeCmd
  · rintro rfl
    exact decodeCmd_encodeCmd i

/-- Settles O2, from O3 at each command. -/
theorem eachCommandIsExactlyOneWord : Obligations.EachCommandIsExactlyOneWord := by
  unfold Obligations.EachCommandIsExactlyOneWord
  intro w
  exact ⟨encodeAndDecodeAgree w .encode, encodeAndDecodeAgree w .decode, encodeAndDecodeAgree w .overhead⟩

/-- Settles O1: the three bit patterns are the encodings of the three commands. -/
theorem writtenOutWordsDecodeToTheirCommands : Obligations.WrittenOutWordsDecodeToTheirCommands := by
  unfold Obligations.WrittenOutWordsDecodeToTheirCommands
  exact ⟨decodeCmd_encodeCmd .encode, decodeCmd_encodeCmd .decode, decodeCmd_encodeCmd .overhead⟩

/-! ### Illegal words -/

/-- The fields of an illegal word (30_encoding R62) are those of every word but the three commands'. -/
theorem illegalFields_iff (w : Word) :
    (rsvField w ≠ 0#30 ∨ opField w = 0b00#2) ↔ w ≠ 0x00000001#32 ∧ w ≠ 0x00000002#32 ∧ w ≠ 0x00000003#32 := by
  have hop : opField w = 0b00#2 ↔ w.toNat % 4 = 0 := by
    rw [← opField_toNat, ← BitVec.toNat_inj, BitVec.toNat_ofNat, Nat.zero_mod]
  rw [ne_eq, rsvField_eq_zero_iff, hop]
  bv_omega

/-- The decoder names a reason for every word but the three commands' (30_encoding R65). -/
theorem decodeCmd_error {w : Word} (h : w ≠ 0x00000001#32 ∧ w ≠ 0x00000002#32 ∧ w ≠ 0x00000003#32) :
    ∃ e, decodeCmd w = .error e := by
  obtain ⟨hencode, hdecode, hoverhead⟩ := h
  rw [decodeCmd_eq, if_neg hencode, if_neg hdecode, if_neg hoverhead]
  exact ⟨_, rfl⟩

end Sys2Proof

namespace Sys2Proof.Machine

theorem commandWrite_error {w : Word} {e : DecodeError} (h : decodeCmd w = .error e) (s : State) :
    commandWrite w s = .next (raiseError .illegalCmd s) := by
  simp [commandWrite, h]

/-- IllegalCmd raised in an IDLE engine writes RESULT and STATUS only (60_exceptions R127, R129). -/
theorem raiseError_illegalCmd_of_idle {s : State} (h : s.engine = .idle) :
    raiseError .illegalCmd s = { s with result := 0x00000000#32, status := 0x0000000B#32 } := by
  rw [raiseError, statusError_illegalCmd, ← h]

/-- Settles O6: the fields exclude the three legal words, and any other word raises IllegalCmd. -/
theorem illegalWordCompletesAsIllegalCmd : Obligations.IllegalWordCompletesAsIllegalCmd := by
  unfold Obligations.IllegalWordCompletesAsIllegalCmd
  intro s w rest hidle hevents
  refine ⟨illegalFields_iff w, fun hillegal => ?_⟩
  obtain ⟨e, herror⟩ := decodeCmd_error ((illegalFields_iff w).1 hillegal)
  calc step s
    _ = commandWrite w { s with events := rest } := step_commandWrite hidle hevents
    _ = .next (raiseError .illegalCmd { s with events := rest }) := commandWrite_error herror _
    _ = .next { s with events := rest, result := 0x00000000#32, status := 0x0000000B#32 } :=
      congrArg _ (raiseError_illegalCmd_of_idle hidle)

end Sys2Proof.Machine
end

