-- ==== Sys2Proof/Proofs/Dispatch.lean ====
section
/-! PROOFS. The dispatch (40_dispatch R69 to R80): which command a CMD write runs, that every command answers a next state, what its outcome depends on, and that the host waits for it. -/

namespace Sys2Proof.Machine

/-! ### The dispatch of a legal word -/

theorem commandWrite_ok {w : Word} {i : Instr} (h : decodeCmd w = .ok i) (s : State) : commandWrite w s = exec i s := by
  simp [commandWrite, h]

/-- Settles O4: with the engine IDLE the step is the CMD write, which runs the decoded command. -/
theorem stepRunsTheDecodedCommand : Obligations.StepRunsTheDecodedCommand := by
  unfold Obligations.StepRunsTheDecodedCommand
  intro s w rest i hidle he hw
  exact (step_commandWrite hidle he).trans (commandWrite_ok hw _)

/-! ### Ends of a command -/

/-- Settles O8, from what any command answers and what it keeps. -/
theorem everyCommandAnswersANextState : Obligations.EveryCommandAnswersANextState := by
  unfold Obligations.EveryCommandAnswersANextState
  intro i s
  obtain ⟨t, ht⟩ := exec_next i s
  obtain ⟨-, -, -, -, hevents, -⟩ := exec_keeps ht
  exact ⟨t, ht, hevents⟩

/-- A command that does not end is stuck or HUNG, and writes neither RESULT nor STATUS (40_dispatch R80). -/
theorem exec_not_idle {i : Instr} {s t : State} (h : exec i s = .next t) (ht : t.engine ≠ .idle) :
    t.NeverCompletes ∧ t.result = s.result ∧ t.status = s.status := by
  rcases exec_cases i s with ⟨he, -⟩ | ⟨he, -⟩ | ⟨_, _, he, -⟩ | ⟨_, he, -⟩ <;> cases he.symm.trans h
  · exact absurd rfl ht
  · exact ⟨.inl ⟨_, _, rfl⟩, rfl, rfl⟩
  · exact absurd rfl ht
  · exact ⟨.inr ⟨_, rfl⟩, rfl, rfl⟩

/-- Settles O31: the command is stuck or HUNG, and a final state has an IDLE engine (70_reset_and_hazards R151). -/
theorem stuckAndHungCommandsWriteNoResult : Obligations.StuckAndHungCommandsWriteNoResult := by
  unfold Obligations.StuckAndHungCommandsWriteNoResult
  intro i s t h ht
  obtain ⟨hnever, hresult, hstatus⟩ := exec_not_idle h ht
  exact ⟨hnever, hresult, hstatus, fun ⟨hidle, _⟩ => ht hidle⟩

/-! ### The host waits -/

/-- Settles O39: the step is the engine's, and no engine step touches the events, the host's reads or an operand register. -/
theorem hostWaitsForTheCommand : Obligations.HostWaitsForTheCommand := by
  unfold Obligations.HostWaitsForTheCommand
  intro s x w rest hbusy he
  have hstep : step s = .next (engineStep s) := by
    rcases he with he | he
    · exact step_host_waits hbusy he
    · rw [step_issue he, if_neg hbusy]
  obtain ⟨haddr, hoffset, hsize, -, hevents, hreads, -⟩ := engineStep_keeps s
  exact ⟨hstep, hevents, hreads, haddr, hoffset, hsize⟩

/-! ### A whole command, verdict by verdict (40_dispatch R75) -/

/-- The body of each command, run once its checks have passed (40_dispatch R70). -/
def commandBody : Instr → Operands → State → State
  | .encode, ops, s => encodeBody ops s
  | .decode, ops, s => decodeBody ops s
  | .overhead, _, s => complete overheadResult s

/-- A command whose size check fails raises SizeRange; OVERHEAD has no size check, so its check cannot fail. -/
theorem exec_badSize {i : Instr} {s : State} (h : checkCommand i (capture s) s.platform = .badSize) :
    exec i s = .next (raiseError .sizeRange s) := by
  cases i with
  | encode => simp [exec, execEncode, h]
  | decode => simp [exec, execDecode, h]
  | overhead => exact absurd (checkCommand_badSize.1 h) (by simp [sizeOk])

/-- A command whose checks pass runs its body. -/
theorem exec_run {i : Instr} {s : State} (h : checkCommand i (capture s) s.platform = .run) :
    exec i s = .next (commandBody i (capture s) s) := by
  cases i with
  | encode => simp [exec, execEncode, h, commandBody]
  | decode => simp [exec, execDecode, h, commandBody]
  | overhead => rfl

/-! ### What a command's outcome depends on (40_dispatch R77) -/

/-- Two memories read alike at the `len` positions from `base`. -/
def AgreeOn (base : Word) (len : Nat) (m m' : Memory) : Prop :=
  ∀ k, k < len → m.read (blk base k) = m'.read (blk base k)

theorem AgreeOn.write {base : Word} {len : Nat} {m m' : Memory} (h : AgreeOn base len m m') (a : Word) (v : Byte) :
    AgreeOn base len (m.write a v) (m'.write a v) := by
  intro k hk
  rw [Memory.read_write, Memory.read_write, h k hk]

/-- ENCODE's scan takes the same branches in memories that agree on its block. -/
theorem encodeScan_agreeOn {base : Word} {n k : Nat} (hk : k ≤ n) (next : Nat) {m m' : Memory}
    (h : AgreeOn base (n + 1) m m') :
    AgreeOn base (n + 1) (encodeScan base k next m) (encodeScan base k next m') := by
  induction k generalizing next m m' with
  | zero => exact h.write _ _
  | succ k ih =>
    simp only [encodeScan, h (k + 1) (by omega)]
    split
    · exact ih (by omega) _ (h.write _ _)
    · exact ih (by omega) _ h

/-- DECODE's walk takes the same branches in memories that agree on its block: it ends alike, and leaves memories that agree there. -/
theorem decodeWalk_agreeOn {base : Word} {size : Nat} (fuel c : Nat) {m m' : Memory} (h : AgreeOn base size m m') :
    ∃ x x', AgreeOn base size x x' ∧
      (decodeWalk base size fuel c m = .ended x ∧ decodeWalk base size fuel c m' = .ended x' ∨
        decodeWalk base size fuel c m = .zeroCode x ∧ decodeWalk base size fuel c m' = .zeroCode x') := by
  induction fuel generalizing c m m' with
  | zero => exact ⟨m, m', h, .inl ⟨rfl, rfl⟩⟩
  | succ fuel ih =>
    by_cases hc : c < size
    · simp only [decodeWalk, if_pos hc, h c hc]
      split
      · exact ⟨_, _, h.write _ _, .inr ⟨rfl, rfl⟩⟩
      · exact ih _ (h.write _ _)
    · simp only [decodeWalk, if_neg hc]
      exact ⟨m, m', h, .inl ⟨rfl, rfl⟩⟩

theorem decodeBody_ended {ops : Operands} {s : State} {m : Memory}
    (h : decodeWalk (decodeBase ops) ops.size.toNat ops.size.toNat 0 s.mem = .ended m) :
    decodeBody ops s = complete (decodeResult ops) { s with mem := m } := by
  simp [decodeBody, h]

theorem decodeBody_zeroCode {ops : Operands} {s : State} {m : Memory}
    (h : decodeWalk (decodeBase ops) ops.size.toNat ops.size.toNat 0 s.mem = .zeroCode m) :
    decodeBody ops s = hang ops { s with mem := m } := by
  simp [decodeBody, h]

/-- The same outcome of a command with region `r`: the same engine, the same RESULT and STATUS if the command ended, and the same
bytes in the region. -/
def SameOutcome (r : Region) (t t' : State) : Prop :=
  t.engine = t'.engine ∧ (t.engine = .idle → t.result = t'.result ∧ t.status = t'.status) ∧ AgreeOn r.base r.len t.mem t'.mem

/-- A body's outcome depends on its region's bytes only. -/
theorem commandBody_sameOutcome (i : Instr) (ops : Operands) {s s' : State}
    (h : AgreeOn (commandRegion i ops).base (commandRegion i ops).len s.mem s'.mem) :
    SameOutcome (commandRegion i ops) (commandBody i ops s) (commandBody i ops s') := by
  cases i with
  | encode => exact ⟨rfl, fun _ => ⟨rfl, rfl⟩, encodeScan_agreeOn (le_refl _) _ (h.write _ _)⟩
  | decode =>
    obtain ⟨m, m', hagree, ⟨he, he'⟩ | ⟨he, he'⟩⟩ := decodeWalk_agreeOn ops.size.toNat 0 h
    · rw [commandBody, commandBody, decodeBody_ended he, decodeBody_ended he']
      exact ⟨rfl, fun _ => ⟨rfl, rfl⟩, hagree⟩
    · rw [commandBody, commandBody, decodeBody_zeroCode he, decodeBody_zeroCode he']
      exact ⟨rfl, nofun, hagree⟩
  | overhead => exact ⟨rfl, fun _ => ⟨rfl, rfl⟩, h⟩

/-- Settles O9: the checks see operands and parameters only, and so does a failing or stuck command; a body sees its region too. -/
theorem outcomeDependsOnOperandsAndRegionOnly : Obligations.OutcomeDependsOnOperandsAndRegionOnly := by
  unfold Obligations.OutcomeDependsOnOperandsAndRegionOnly
  intro i s s' hops hplatform hregion
  have hsame : checkCommand i (capture s') s'.platform = checkCommand i (capture s) s.platform := by rw [hops, hplatform]
  cases hcheck : checkCommand i (capture s) s.platform with
  | badSize => exact ⟨_, _, exec_badSize hcheck, exec_badSize (hsame.trans hcheck), rfl, fun _ => ⟨rfl, rfl⟩, hregion⟩
  | inadmissible =>
    refine ⟨_, _, exec_inadmissible hcheck, exec_inadmissible (hsame.trans hcheck), ?_, nofun, hregion⟩
    rw [stick_engine, stick_engine, hops]
  | run =>
    refine ⟨_, _, exec_run hcheck, exec_run (hsame.trans hcheck), ?_⟩
    rw [← hops]
    exact commandBody_sameOutcome i (capture s) hregion

end Sys2Proof.Machine
end

