-- ==== Sys2Proof/Proofs/Refinement.lean ====
section
/-! PROOFS. The engine's steps, one by one, reach what the CMD write as one whole gives (40_dispatch R69, 41_encoder R86, 42_decoder R101). -/

namespace Sys2Proof.Machine

/-- The work of each command once its checks have passed (40_dispatch R75). -/
def startWork : Instr → Operands → Work
  | .encode, ops => .encode ops .none .start
  | .decode, ops => .decode ops .none (.read 0)
  | .overhead, _ => .overhead

theorem workOf_run {w : Word} {i : Instr} {ops : Operands} {p : Platform} (hw : decodeCmd w = .ok i)
    (h : checkCommand i ops p = .run) : workOf w ops p = startWork i ops := by
  cases i <;> simp [workOf, hw, h, startWork]

/-- Undisturbed engine steps reach a command's whole body, in at most two per position of its block and four more. -/
theorem engineSteps_commandBody {i : Instr} {ops : Operands} (hsize : sizeOk i ops = true) (s : State) :
    ∃ j, j ≤ 2 * ops.size.toNat + 4 ∧ engineSteps j { s with engine := .busy (startWork i ops) } = commandBody i ops s := by
  cases i with
  | encode => exact engineSteps_encodeBody ops ((sizeOk_encode ops).1 hsize) s
  | decode =>
    obtain ⟨j, hj, he⟩ := engineSteps_decodeWalk ops ops.size.toNat 0 (le_refl _) s
    exact ⟨j, by omega, he⟩
  | overhead => exact ⟨1, by omega, rfl⟩

/-- A step-by-step CMD write of any word reaches what the whole one answers. -/
theorem engineSteps_beginCommand (w : Word) (s : State) :
    ∃ j, j ≤ 2 * s.size.toNat + 4 ∧ .next (engineSteps j (beginCommand w s)) = commandWrite w s := by
  cases hw : decodeCmd w with
  | error e =>
    refine ⟨1, by omega, ?_⟩
    rw [commandWrite_error hw, beginCommand, workOf_error hw]
    rfl
  | ok i =>
    rw [commandWrite_ok hw, beginCommand]
    cases hcheck : checkCommand i (capture s) s.platform with
    | badSize =>
      refine ⟨1, by omega, ?_⟩
      rw [exec_badSize hcheck, workOf_badSize hw (by simp [checkCommand_badSize.1 hcheck])]
      rfl
    | inadmissible =>
      obtain ⟨hsize, hadm⟩ := checkCommand_inadmissible.1 hcheck
      refine ⟨0, by omega, ?_⟩
      rw [exec_inadmissible hcheck, workOf_inadmissible hw hsize hadm]
      rfl
    | run =>
      obtain ⟨hsize, -⟩ := checkCommand_run.1 hcheck
      obtain ⟨j, hj, he⟩ := engineSteps_commandBody hsize s
      refine ⟨j, hj, ?_⟩
      rw [exec_run hcheck, workOf_run hw hcheck, he]

/-- Settles O52: one step to take the write, then the engine's steps. -/
theorem engineStepsReachTheWholeCommand : Obligations.EngineStepsReachTheWholeCommand := by
  unfold Obligations.EngineStepsReachTheWholeCommand
  intro s w hidle he
  have hissue : step s = .next (beginCommand w { s with events := [] }) := by
    rw [step_issue he, if_pos hidle]
  obtain ⟨j, hj, hwhole⟩ := engineSteps_beginCommand w { s with events := [] }
  change j ≤ 2 * s.size.toNat + 4 at hj
  refine ⟨j + 1, by omega, ?_⟩
  rw [core_run_next hissue, core_run_engineSteps j rfl]
  exact hwhole

end Sys2Proof.Machine
end

