-- ==== Sys2Proof/Proofs/EncodedBlock.lean ====
section
/-! PROOFS. The encoded block of 41_encoder R85 as such: a marker has one successor, so the block's bytes are determined, in range and never 0x00. -/

namespace Sys2Proof.Machine

/-! ### Markers and their successors -/

section
variable {m m' : Memory} {base : Word} {n k z w : Nat}

theorem isMarker_zero : IsMarker m base n 0 :=
  .inl rfl

/-- Past the overhead byte, the markers are the payload's zeros. -/
theorem isMarker_payload_iff (hlow : 1 ≤ k) (hk : k ≤ n) : IsMarker m base n k ↔ m.read (blk base k) = 0x00#8 := by
  constructor
  · rintro (h | ⟨-, -, h⟩)
    · omega
    · exact h
  · exact fun h => .inr ⟨hlow, hk, h⟩

theorem IsSucc.le_of_isSucc (hz : IsSucc m base n k z) (hw : IsSucc m base n k w) : z ≤ w := by
  obtain ⟨-, -, hzle, hbetween⟩ := hz
  obtain ⟨hkw, hend | hmarker, -, -⟩ := hw
  · omega
  · exact Nat.not_lt.1 (fun hlt => hbetween w hkw hlt hmarker)

/-- `succ(k)` is one position. -/
theorem IsSucc.unique (hz : IsSucc m base n k z) (hw : IsSucc m base n k w) : z = w :=
  Nat.le_antisymm (hz.le_of_isSucc hw) (hw.le_of_isSucc hz)

/-- The position right after `k` is its successor if it is a marker or the end position. -/
theorem isSucc_next (hk : k ≤ n) (h : k = n ∨ IsMarker m base n (k + 1)) : IsSucc m base n k (k + 1) :=
  ⟨by omega, h.imp_left (congrArg (· + 1)), by omega, fun j hj hj' => by omega⟩

/-! ### The bytes of an encoded block -/

namespace EncodedBlock
variable (h : EncodedBlock m m' base n)
include h

/-- A marker holds the distance to its successor, whichever way that successor was found. -/
theorem read_marker (hk : k ≤ n) (hmarker : IsMarker m base n k) (hz : IsSucc m base n k z) :
    (m'.read (blk base k)).toNat = z - k := by
  obtain ⟨w, hw, hread⟩ := (h k hk).1 hmarker
  rw [hread, hw.unique hz]

theorem read_marker_bounds (hk : k ≤ n) (hmarker : IsMarker m base n k) :
    1 ≤ (m'.read (blk base k)).toNat ∧ (m'.read (blk base k)).toNat ≤ n + 1 - k := by
  obtain ⟨z, ⟨hlt, -, hle, -⟩, hread⟩ := (h k hk).1 hmarker
  omega

/-- Right before another marker, or before the end, a marker is 1. -/
theorem read_marker_eq_one (hk : k ≤ n) (hmarker : IsMarker m base n k) (hnext : k = n ∨ IsMarker m base n (k + 1)) :
    m'.read (blk base k) = 0x01#8 := by
  apply BitVec.eq_of_toNat_eq
  rw [h.read_marker hk hmarker (isSucc_next hk hnext), Nat.add_sub_cancel_left]
  rfl

/-- ENCODE never writes a non-zero payload byte (41_encoder R87). -/
theorem read_payload (hlow : 1 ≤ k) (hk : k ≤ n) (hne : m.read (blk base k) ≠ 0x00#8) :
    m'.read (blk base k) = m.read (blk base k) :=
  (h k hk).2 ((isMarker_payload_iff hlow hk).not.2 hne)

theorem read_ne_zero (hk : k ≤ n) : m'.read (blk base k) ≠ 0x00#8 := by
  by_cases hmarker : IsMarker m base n k
  · intro hzero
    obtain ⟨hpos, -⟩ := h.read_marker_bounds hk hmarker
    rw [hzero] at hpos
    exact absurd hpos (by decide)
  · have hlow : 1 ≤ k := Nat.pos_of_ne_zero (fun h0 => hmarker (.inl h0))
    have hne : m.read (blk base k) ≠ 0x00#8 := (isMarker_payload_iff hlow hk).not.1 hmarker
    rwa [h.read_payload hlow hk hne]

/-- With no zero in the payload the overhead byte's successor is the end position. -/
theorem read_overhead_of_zeroFree (hfree : ∀ k, 1 ≤ k → k ≤ n → m.read (blk base k) ≠ 0x00#8) :
    (m'.read (blk base 0)).toNat = n + 1 :=
  h.read_marker (Nat.zero_le n) isMarker_zero
    ⟨Nat.succ_pos n, .inl rfl, le_refl _, fun j hj hj' =>
      (isMarker_payload_iff hj (Nat.le_of_lt_succ hj')).not.2 (hfree j hj (Nat.le_of_lt_succ hj'))⟩

/-- With no zero in the payload the overhead byte is the only one that changes. -/
theorem read_of_zeroFree (houtside : UntouchedOutside m m' base (n + 1))
    (hfree : ∀ k, 1 ≤ k → k ≤ n → m.read (blk base k) ≠ 0x00#8) {a : Word} (ha : a ≠ blk base 0) : m'.read a = m.read a := by
  by_cases hin : ∃ k, k < n + 1 ∧ a = blk base k
  · obtain ⟨k, hk, rfl⟩ := hin
    have hlow : 1 ≤ k := Nat.pos_of_ne_zero (fun h0 => ha (by rw [h0]))
    exact h.read_payload hlow (by omega) (hfree k hlow (by omega))
  · exact houtside a (fun k hk he => hin ⟨k, hk, he⟩)

end EncodedBlock
end

/-! ### The overhead byte's old value (41_encoder R87) -/

theorem Memory.read_write_write (m : Memory) (a b : Word) (v w : Byte) :
    ((m.write a v).write a w).read b = (m.write a w).read b := by
  simp only [Memory.read_write]
  split <;> rfl

/-- ENCODE overwrites the overhead byte before it reads it, so what it held makes no difference anywhere. -/
theorem encodeMemory_write_overhead (m : Memory) (base : Word) (n : Nat) (v : Byte) (a : Word) :
    (encodeMemory base n (m.write (blk base 0) v)).read a = (encodeMemory base n m).read a := by
  by_cases hin : ∃ k, k < n + 1 ∧ a = blk base k
  · obtain ⟨k, hk, rfl⟩ := hin
    exact encodeScan_agreeOn (le_refl n) (n + 1) (fun _ _ => Memory.read_write_write m _ _ v 0x00#8) k hk
  · have hout : ∀ k, k < n + 1 → a ≠ blk base k := fun k hk he => hin ⟨k, hk, he⟩
    rw [encodeMemory_untouched base n _ a hout, encodeMemory_untouched base n _ a hout,
      Memory.read_write_other m v (hout 0 (by omega))]

end Sys2Proof.Machine
end

