-- ==== Sys2Proof/Proofs/Encode.lean ====
section
/-! PROOFS. ENCODE as a whole command: its size check (41_encoder R83), RESULT and STATUS (R88), the encoded block (R85, R87) and the spec's derived sentences about it (41_encoder sections 3 and 4). -/

namespace Sys2Proof.Machine

/-! ### How ENCODE ends -/

/-- The next state of an error of cause SizeRange (60_exceptions R126, R127). -/
theorem raiseError_sizeRange (s : State) :
    raiseError .sizeRange s = { s with result := 0x00000000#32, status := 0x00000007#32, engine := .idle } := by
  rw [raiseError, statusError_sizeRange]

/-- A command that fails its size check, as one whole next state. -/
theorem exec_sizeRange {i : Instr} {s : State} (h : checkCommand i (capture s) s.platform = .badSize) :
    exec i s = .next { s with result := 0x00000000#32, status := 0x00000007#32, engine := .idle } := by
  rw [← raiseError_sizeRange]
  exact exec_badSize h

theorem checkCommand_encode_badSize (s : State) :
    checkCommand .encode (capture s) s.platform = .badSize ↔ 254 < s.size.toNat := by
  rw [checkCommand_badSize, ← Bool.not_eq_true, sizeOk_encode, capture_size, Nat.not_le]

theorem exec_encode_sizeRange {s : State} (hbad : 254 < s.size.toNat) :
    exec .encode s = .next { s with result := 0x00000000#32, status := 0x00000007#32, engine := .idle } :=
  exec_sizeRange ((checkCommand_encode_badSize s).2 hbad)

/-- ENCODE past its checks, as one whole next state (41_encoder R86, R88). -/
theorem exec_encode_run {s : State} (hn : s.size.toNat ≤ 254)
    (ha : AllAdmitted s.platform (s.addr + s.offset - 1#32) (s.size.toNat + 1)) :
    exec .encode s = .next { s with
      mem := encodeMemory (s.addr + s.offset - 1#32) s.size.toNat s.mem
      result := s.size + 1#32, status := 0x00000001#32, engine := .idle } := by
  refine (execEncode_run hn ha).trans ?_
  rw [encodeBody, complete, encodeResult_setWidth hn]
  rfl

/-- Everything a statement about a completed ENCODE needs: RESULT, STATUS, the engine, the encoded block and the frame of memory. -/
theorem exec_encode_completes {s : State} (hn : s.size.toNat ≤ 254)
    (ha : AllAdmitted s.platform (s.addr + s.offset - 1#32) (s.size.toNat + 1)) :
    ∃ t, exec .encode s = .next t ∧ t.result = s.size + 1#32 ∧ t.status = 0x00000001#32 ∧ t.engine = .idle ∧
      EncodedBlock s.mem t.mem (s.addr + s.offset - 1#32) s.size.toNat ∧
      UntouchedOutside s.mem t.mem (s.addr + s.offset - 1#32) (s.size.toNat + 1) :=
  ⟨_, exec_encode_run hn ha, rfl, rfl, rfl, encodeMemory_encodedBlock _ _ hn, encodeMemory_untouched _ _ _⟩

/-- Settles O10, from what a completed ENCODE leaves in memory. -/
theorem encodeWritesTheEncodedBlock : Obligations.EncodeWritesTheEncodedBlock := by
  unfold Obligations.EncodeWritesTheEncodedBlock
  intro s hn ha
  obtain ⟨t, ht, -, -, hidle, hblock, houtside⟩ := exec_encode_completes hn ha
  exact ⟨t, ht, hidle, hblock, houtside⟩

/-- Settles O11: both ends of ENCODE, each as one whole next state. -/
theorem encodeResultAndStatus : Obligations.EncodeResultAndStatus := by
  unfold Obligations.EncodeResultAndStatus
  exact fun s => ⟨fun hn ha => ⟨_, exec_encode_run hn ha⟩, exec_encode_sizeRange⟩

/-- Settles O12: the verdict "bad size" is the size check's answer, and the failing end keeps memory. -/
theorem encodeSizeCheck : Obligations.EncodeSizeCheck := by
  unfold Obligations.EncodeSizeCheck
  exact fun s => ⟨checkCommand_encode_badSize s, exec_encode_sizeRange⟩

/-! ### The bytes a completed ENCODE leaves -/

/-- Settles O15: the overhead byte is overwritten before it is read, and a non-zero payload byte is no marker. -/
theorem encodeIgnoresTheOldOverheadByte : Obligations.EncodeIgnoresTheOldOverheadByte := by
  unfold Obligations.EncodeIgnoresTheOldOverheadByte
  intro s v hn ha
  refine ⟨_, _, exec_encode_run hn ha, exec_encode_run hn ha, rfl, rfl, rfl, fun a => ?_, fun k hlow hk hne => ?_⟩
  · exact (encodeMemory_write_overhead s.mem _ _ v a).symm
  · exact (encodeMemory_encodedBlock _ _ hn).read_payload hlow hk hne

/-- Settles O16: a marker is a positive distance, and every other byte of the block is a non-zero payload byte. -/
theorem encodedBlockHasNoZeroByte : Obligations.EncodedBlockHasNoZeroByte := by
  unfold Obligations.EncodedBlockHasNoZeroByte
  intro s hn ha
  obtain ⟨t, ht, -, hstatus, -, hblock, -⟩ := exec_encode_completes hn ha
  exact ⟨t, ht, hstatus, fun k hk => hblock.read_ne_zero hk⟩

/-- Settles O17: a marker at `k` is between 1 and `n + 1 - k`, and it is 1 right before another one. -/
theorem encodeMarkersAreInRange : Obligations.EncodeMarkersAreInRange := by
  unfold Obligations.EncodeMarkersAreInRange
  intro s hn ha
  obtain ⟨t, ht, -, -, -, hblock, -⟩ := exec_encode_completes hn ha
  refine ⟨t, ht, hblock.read_marker_bounds (Nat.zero_le _) isMarker_zero, fun k hlow hk hzero => ?_, fun hpos hzero => ?_⟩
  · obtain ⟨hmin, hmax⟩ := hblock.read_marker_bounds hk ((isMarker_payload_iff hlow hk).2 hzero)
    exact ⟨hmin, by omega⟩
  · exact hblock.read_marker_eq_one (Nat.zero_le _) isMarker_zero (.inr ((isMarker_payload_iff (le_refl 1) hpos).2 hzero))

/-- Settles O18: with no payload zero the only marker is the overhead byte; with zeros only, every position is right before a marker or
the end. -/
theorem encodeOfZeroFreeAndAllZeroPayloads : Obligations.EncodeOfZeroFreeAndAllZeroPayloads := by
  unfold Obligations.EncodeOfZeroFreeAndAllZeroPayloads
  intro s hn ha
  obtain ⟨t, ht, -, -, -, hblock, houtside⟩ := exec_encode_completes hn ha
  refine ⟨t, ht, fun hfree => ⟨hblock.read_overhead_of_zeroFree hfree, fun a => hblock.read_of_zeroFree houtside hfree⟩,
    fun hzeros k hk => ?_⟩
  have hmarker : ∀ j, j ≤ s.size.toNat → IsMarker s.mem (s.addr + s.offset - 1#32) s.size.toNat j := fun j hj => by
    rcases Nat.eq_zero_or_pos j with h0 | hpos
    · exact .inl h0
    · exact .inr ⟨hpos, hj, hzeros j hpos hj⟩
  refine hblock.read_marker_eq_one hk (hmarker k hk) ?_
  rcases Nat.eq_or_lt_of_le hk with hend | hlt
  · exact .inl hend
  · exact .inr (hmarker (k + 1) hlt)

/-! ### The reset operands (70_reset_and_hazards section 1) -/

/-- A region of one byte is admitted exactly if that byte is. -/
theorem allAdmitted_one (p : Platform) (a : Word) : AllAdmitted p a 1 ↔ admitted p a = true := by
  simp [AllAdmitted, blk]

/-- Settles O47: ENCODE of an empty payload at address -1, whose only marker is the overhead byte; DECODE of size 0; OVERHEAD. -/
theorem commandsOnResetOperands : Obligations.CommandsOnResetOperands := by
  unfold Obligations.CommandsOnResetOperands
  intro s haddr hoffset hsize
  have hbase : s.addr + s.offset - 1#32 = 0xFFFFFFFF#32 := by rw [haddr, hoffset]; rfl
  have hlen : s.size.toNat = 0 := by rw [hsize]; rfl
  refine ⟨fun hadm => ?_, fun hadm => ?_, ?_, rfl⟩
  · have ha : AllAdmitted s.platform (s.addr + s.offset - 1#32) (s.size.toNat + 1) := by
      rwa [hbase, hlen, allAdmitted_one]
    obtain ⟨t, ht, hresult, hstatus, hidle, hblock, houtside⟩ := exec_encode_completes (by omega) ha
    rw [hsize] at hresult
    rw [hbase, hlen] at hblock houtside
    refine ⟨t, ht, hresult, hstatus, hidle, ?_, fun a hne => ?_⟩
    · exact hblock.read_marker_eq_one (le_refl 0) isMarker_zero (.inl rfl)
    · exact hblock.read_of_zeroFree houtside (by omega) hne
  · refine (encodeOfAnInadmissibleRegionIsStuck s (by omega) ?_).1
    rw [hbase, hlen, allAdmitted_one, hadm]
    exact Bool.false_ne_true
  · refine exec_sizeRange (checkCommand_badSize.2 ?_)
    rw [← Bool.not_eq_true, sizeOk_decode, capture_size]
    omega

end Sys2Proof.Machine
end

