-- ==== Sys2Proof/Proofs/RoundTrip.lean ====
section
/-! PROOFS. The round trip (42_decoder section 3, R108): the chain DECODE walks in an encoded block visits exactly the markers ENCODE left, so DECODE puts 0x00 back exactly where the payload had it. -/

namespace Sys2Proof.Machine

/-! ### DECODE of a clear chain -/

/-- DECODE past its checks on a chain that meets no 0x00, as one whole next state (42_decoder R101, R105). -/
theorem exec_decode_completes {s : State} (hn : 1 ≤ s.size.toNat ∧ s.size.toNat ≤ 255)
    (ha : AllAdmitted s.platform s.addr s.size.toNat) (hclear : ChainClear s.mem s.addr s.size.toNat) :
    ∃ m, exec .decode s = .next { s with mem := m, result := s.size - 1#32, status := 0x00000001#32, engine := .idle } ∧
      DecodedBlock s.mem m s.addr s.size.toNat ∧ UntouchedOutside s.mem m s.addr s.size.toNat := by
  obtain ⟨hlow, hhigh⟩ := hn
  obtain ⟨m, hdecoded, houtside, -, ⟨-, hbody⟩ | ⟨hmeets, -⟩⟩ := decodeBody_cases (capture s) s
  · refine ⟨m, (execDecode_run ⟨hlow, hhigh⟩ ha).trans ?_, hdecoded, houtside⟩
    rw [hbody, complete, decodeResult_setWidth hlow hhigh]
    rfl
  · exact absurd hclear hmeets

/-- The first byte of a block is on its chain, so DECODE clears it. -/
theorem DecodedBlock.read_start {m m' : Memory} {base : Word} {size : Nat} (h : DecodedBlock m m' base size)
    (hpos : 0 < size) : m'.read (blk base 0) = 0x00#8 := by
  obtain ⟨hcleared, -⟩ := h 0 hpos
  exact hcleared (.start hpos)

/-! ### The chain of an encoded block -/

namespace EncodedBlock
variable {m m' m'' : Memory} {base : Word} {n k : Nat} (h : EncodedBlock m m' base n)
include h

/-- The chain goes from marker to marker. -/
theorem isMarker_of_onChain (hk : OnChain m' base (n + 1) k) : IsMarker m base n k := by
  induction hk with
  | start _ => exact isMarker_zero
  | @jump c hc hlt ih =>
    have hcn : c ≤ n := Nat.le_of_lt_succ hc.lt_size
    obtain ⟨z, ⟨hcz, hmarker, -, -⟩, hread⟩ := (h c hcn).1 ih
    rw [hread, Nat.add_sub_cancel' hcz.le] at hlt ⊢
    exact hmarker.resolve_left hlt.ne

/-- At or before any position of the block there is a last marker, and the chain visits it. -/
theorem exists_onChain_last_marker (hk : k ≤ n) :
    ∃ c, c ≤ k ∧ OnChain m' base (n + 1) c ∧ ∀ j, c < j → j ≤ k → ¬ IsMarker m base n j := by
  induction k with
  | zero => exact ⟨0, le_refl 0, .start (Nat.succ_pos n), fun j hj hj' => by omega⟩
  | succ k ih =>
    obtain ⟨c, hck, hc, hnone⟩ := ih (by omega)
    by_cases hmarker : IsMarker m base n (k + 1)
    · have hsucc : IsSucc m base n c (k + 1) :=
        ⟨by omega, .inr hmarker, by omega, fun j hj hj' => hnone j hj (by omega)⟩
      have hjump : c + (m'.read (blk base c)).toNat = k + 1 := by
        rw [h.read_marker (by omega) (h.isMarker_of_onChain hc) hsucc]
        omega
      exact ⟨k + 1, le_refl _, hjump ▸ hc.jump (by omega), fun j hj hj' => by omega⟩
    · refine ⟨c, by omega, hc, fun j hj hj' => ?_⟩
      rcases Nat.eq_or_lt_of_le hj' with rfl | hlt
      · exact hmarker
      · exact hnone j hj (by omega)

/-- The chain of an encoded block visits exactly the markers. -/
theorem onChain_iff_isMarker (hk : k ≤ n) : OnChain m' base (n + 1) k ↔ IsMarker m base n k := by
  refine ⟨h.isMarker_of_onChain, fun hmarker => ?_⟩
  obtain ⟨c, hck, hc, hnone⟩ := h.exists_onChain_last_marker hk
  rcases Nat.eq_or_lt_of_le hck with rfl | hlt
  · exact hc
  · exact absurd hmarker (hnone k hlt (le_refl k))

theorem chainClear : ChainClear m' base (n + 1) :=
  fun _ hc => h.read_ne_zero (Nat.le_of_lt_succ hc.lt_size)

/-! ### Decoding an encoded block -/

/-- A payload zero was a marker and is 0x00 again; any other payload byte was neither encoded nor decoded. -/
theorem decoded_read_payload (hdecoded : DecodedBlock m' m'' base (n + 1)) (hlow : 1 ≤ k) (hk : k ≤ n) :
    m''.read (blk base k) = m.read (blk base k) := by
  obtain ⟨hcleared, hkept⟩ := hdecoded k (Nat.lt_succ_of_le hk)
  by_cases hmarker : IsMarker m base n k
  · rw [hcleared ((h.onChain_iff_isMarker hk).2 hmarker), (isMarker_payload_iff hlow hk).1 hmarker]
  · rw [hkept ((h.onChain_iff_isMarker hk).not.2 hmarker), (h k hk).2 hmarker]

end EncodedBlock

/-- Settles O28: ENCODE leaves an encoded block, whose chain is clear, so DECODE of it completes and undoes every marker. -/
theorem roundTripRestoresThePayload : Obligations.RoundTripRestoresThePayload := by
  unfold Obligations.RoundTripRestoresThePayload
  intro s hn ha
  obtain ⟨t, ht, -, -, -, hblock, hencoded⟩ := exec_encode_completes hn ha
  have hlen : (s.size + 1#32).toNat = s.size.toNat + 1 := by
    bv_omega
  have hsize : 1 ≤ (s.size + 1#32).toNat ∧ (s.size + 1#32).toNat ≤ 255 := by omega
  have hadm : AllAdmitted t.platform (s.addr + s.offset - 1#32) (s.size + 1#32).toNat := by
    rwa [exec_platform ht, hlen]
  have hclear : ChainClear t.mem (s.addr + s.offset - 1#32) (s.size + 1#32).toNat := by
    rw [hlen]
    exact hblock.chainClear
  obtain ⟨m, hu, hdecoded, hkept⟩ :=
    exec_decode_completes (s := { t with addr := s.addr + s.offset - 1#32, size := s.size + 1#32 }) hsize hadm hclear
  simp only [hlen] at hdecoded hkept
  exact ⟨t, _, ht, hu, rfl, BitVec.add_sub_cancel _ _, rfl, fun k => hblock.decoded_read_payload hdecoded,
    hdecoded.read_start (Nat.succ_pos _), hencoded.trans hkept⟩

end Sys2Proof.Machine
end

