-- ==== Sys2Proof/Proofs/DecodeCommand.lean ====
section
/-! PROOFS. DECODE as a whole command: its size check (42_decoder R99), RESULT and STATUS (R105), its completion (R103) and its hang (R104), and the spec's derived sentences about both (42_decoder sections 2 to 4). -/

namespace Sys2Proof.Machine

/-! ### The size check -/

theorem checkCommand_decode_badSize (s : State) :
    checkCommand .decode (capture s) s.platform = .badSize ↔ s.size.toNat < 1 ∨ 255 < s.size.toNat := by
  rw [checkCommand_badSize, ← Bool.not_eq_true, sizeOk_decode, capture_size]
  omega

theorem exec_decode_sizeRange {s : State} (hbad : s.size.toNat < 1 ∨ 255 < s.size.toNat) :
    exec .decode s = .next { s with result := 0x00000000#32, status := 0x00000007#32, engine := .idle } :=
  exec_sizeRange ((checkCommand_decode_badSize s).2 hbad)

/-- Settles O22: the verdict "bad size" is the size check's answer, and the failing end keeps memory. -/
theorem decodeSizeCheck : Obligations.DecodeSizeCheck := by
  unfold Obligations.DecodeSizeCheck
  exact fun s => ⟨checkCommand_decode_badSize s, exec_decode_sizeRange⟩

/-! ### How DECODE of an admitted block ends -/

/-- DECODE past its checks on a chain that meets 0x00, as one whole next state (42_decoder R101, R104). -/
theorem exec_decode_hangs {s : State} (hn : 1 ≤ s.size.toNat ∧ s.size.toNat ≤ 255)
    (ha : AllAdmitted s.platform s.addr s.size.toNat) (hmeets : ¬ ChainClear s.mem s.addr s.size.toNat) :
    ∃ m, exec .decode s = .next { s with mem := m, engine := .hung (capture s) } ∧
      DecodedBlock s.mem m s.addr s.size.toNat ∧ UntouchedOutside s.mem m s.addr s.size.toNat := by
  obtain ⟨m, hdecoded, houtside, -, ⟨hclear, -⟩ | ⟨-, hbody⟩⟩ := decodeBody_cases (capture s) s
  · exact absurd hclear hmeets
  · refine ⟨m, (execDecode_run hn ha).trans ?_, hdecoded, houtside⟩
    rw [hbody, hang]

/-- Settles O19: the checks pass, and the walk of a clear chain ends. -/
theorem decodeClearsTheChain : Obligations.DecodeClearsTheChain := by
  unfold Obligations.DecodeClearsTheChain
  exact fun s hlow hhigh ha hclear => exec_decode_completes ⟨hlow, hhigh⟩ ha hclear

/-- Settles O20: the checks pass, the walk meets a zero code byte, and a HUNG engine has no step of its own. -/
theorem decodeOfAZeroCodeByteHangs : Obligations.DecodeOfAZeroCodeByteHangs := by
  unfold Obligations.DecodeOfAZeroCodeByteHangs
  intro s hlow hhigh ha hmeets
  obtain ⟨m, ht, hdecoded, houtside⟩ := exec_decode_hangs ⟨hlow, hhigh⟩ ha hmeets
  exact ⟨m, ht, hdecoded, houtside, engineStep_of_neverCompletes (.inr ⟨_, rfl⟩)⟩

/-- Settles O21: the three ends of DECODE on an admitted block or a bad size, each as one whole next state. -/
theorem decodeResultAndStatus : Obligations.DecodeResultAndStatus := by
  unfold Obligations.DecodeResultAndStatus
  refine fun s => ⟨exec_decode_sizeRange, fun hlow hhigh ha => ⟨fun hclear => ?_, fun hmeets => ?_⟩⟩
  · obtain ⟨m, ht, -⟩ := exec_decode_completes ⟨hlow, hhigh⟩ ha hclear
    exact ⟨m, ht⟩
  · obtain ⟨m, ht, -⟩ := exec_decode_hangs ⟨hlow, hhigh⟩ ha hmeets
    exact ⟨m, ht⟩

/-! ### OFFSET -/

/-- DECODE's checks read ADDR and SIZE, not OFFSET (42_decoder R98). -/
theorem checkCommand_decode_offset (ops : Operands) (v : Word) (p : Platform) :
    checkCommand .decode { ops with offset := v } p = checkCommand .decode ops p := rfl

/-- DECODE's walk starts at ADDR and counts to SIZE, so with another OFFSET its body ends alike and leaves the same memory. -/
theorem decodeBody_offset (ops : Operands) (s : State) (v : Word) :
    ∃ m,
      (decodeBody ops s = complete (decodeResult ops) { s with mem := m } ∧
        decodeBody { ops with offset := v } { s with offset := v } =
          complete (decodeResult ops) { s with mem := m, offset := v }) ∨
      (decodeBody ops s = hang ops { s with mem := m } ∧
        decodeBody { ops with offset := v } { s with offset := v } =
          hang { ops with offset := v } { s with mem := m, offset := v }) := by
  cases hwalk : decodeWalk (decodeBase ops) ops.size.toNat ops.size.toNat 0 s.mem with
  | ended m => exact ⟨m, .inl ⟨decodeBody_ended hwalk, decodeBody_ended hwalk⟩⟩
  | zeroCode m => exact ⟨m, .inr ⟨decodeBody_zeroCode hwalk, decodeBody_zeroCode hwalk⟩⟩

/-- Settles O25: the checks and the walk see ADDR and SIZE only, so both DECODEs get one verdict and one walk. -/
theorem decodeIgnoresOffset : Obligations.DecodeIgnoresOffset := by
  unfold Obligations.DecodeIgnoresOffset
  intro s v
  have hsame : checkCommand .decode (capture { s with offset := v }) s.platform =
      checkCommand .decode (capture s) s.platform := checkCommand_decode_offset (capture s) v s.platform
  cases hcheck : checkCommand .decode (capture s) s.platform with
  | badSize =>
    exact ⟨_, _, exec_badSize hcheck, exec_badSize (hsame.trans hcheck), rfl, rfl, rfl, Iff.rfl, rfl⟩
  | inadmissible =>
    exact ⟨_, _, exec_inadmissible hcheck, exec_inadmissible (hsame.trans hcheck), rfl, rfl, rfl, by simp, rfl⟩
  | run =>
    have hrun := exec_run hcheck
    have hrun' := exec_run (hsame.trans hcheck)
    obtain ⟨m, ⟨he, he'⟩ | ⟨he, he'⟩⟩ := decodeBody_offset (capture s) s v
    · exact ⟨_, _, hrun.trans (congrArg _ he), hrun'.trans (congrArg _ he'), rfl, rfl, rfl, Iff.rfl, rfl⟩
    · exact ⟨_, _, hrun.trans (congrArg _ he), hrun'.trans (congrArg _ he'), rfl, rfl, rfl, by simp, rfl⟩

/-! ### Zero-free blocks, and decoding twice -/

theorem chainClear_of_zeroFree {m : Memory} {base : Word} {size : Nat}
    (hfree : ∀ k, k < size → m.read (blk base k) ≠ 0x00#8) : ChainClear m base size :=
  fun k hk => hfree k hk.lt_size

/-- A block whose overhead byte is 0x00 meets it at the first step of its chain. -/
theorem not_chainClear_of_read_start {m : Memory} {base : Word} {size : Nat} (hpos : 0 < size)
    (hzero : m.read (blk base 0) = 0x00#8) : ¬ ChainClear m base size :=
  fun hclear => hclear 0 (.start hpos) hzero

/-- Settles O27: with no 0x00 in the block its chain meets none, and the chain's first position is the overhead byte. -/
theorem zeroFreeBlockNeverHangs : Obligations.ZeroFreeBlockNeverHangs := by
  unfold Obligations.ZeroFreeBlockNeverHangs
  intro s hlow hhigh ha hfree
  obtain ⟨m, ht, hdecoded, -⟩ := exec_decode_completes ⟨hlow, hhigh⟩ ha (chainClear_of_zeroFree hfree)
  exact ⟨_, ht, rfl, rfl, rfl, hdecoded.read_start hlow⟩

/-- A DECODE that ends with success passed both checks, and its chain was clear: any other DECODE fails, sticks or hangs. -/
theorem exec_decode_succeeded {s t : State} (h : exec .decode s = .next t) (hidle : t.engine = .idle)
    (hstatus : t.status = 0x00000001#32) :
    (1 ≤ s.size.toNat ∧ s.size.toNat ≤ 255) ∧ AllAdmitted s.platform s.addr s.size.toNat ∧
      ChainClear s.mem s.addr s.size.toNat := by
  rcases execDecode_cases s with ⟨-, he⟩ | ⟨-, -, he⟩ | ⟨hn, ha, -⟩
  · cases he.symm.trans h
    exact absurd hstatus (show statusError .sizeRange ≠ _ by decide)
  · cases he.symm.trans h
    cases hidle
  · refine ⟨hn, ha, by_contra fun hmeets => ?_⟩
    obtain ⟨m, he, -⟩ := exec_decode_hangs hn ha hmeets
    cases he.symm.trans h
    cases hidle

/-- Settles O26: the first DECODE clears the overhead byte, where the second one's chain starts, and leaves what the checks see. -/
theorem decodingTwiceHangs : Obligations.DecodingTwiceHangs := by
  unfold Obligations.DecodingTwiceHangs
  intro s t h hidle hstatus
  obtain ⟨⟨hlow, hhigh⟩, ha, hclear⟩ := exec_decode_succeeded h hidle hstatus
  obtain ⟨m, he, hdecoded, -⟩ := exec_decode_completes ⟨hlow, hhigh⟩ ha hclear
  cases he.symm.trans h
  have hzero : m.read (blk s.addr 0) = 0x00#8 := hdecoded.read_start hlow
  obtain ⟨_, hu, -⟩ := exec_decode_hangs (s := { s with
    mem := m, result := s.size - 1#32, status := 0x00000001#32, engine := .idle }) ⟨hlow, hhigh⟩ ha
    (not_chainClear_of_read_start hlow hzero)
  exact ⟨hzero, _, hu, rfl⟩

end Sys2Proof.Machine
end

