-- ==== Sys2Proof/Proofs/OverheadCommand.lean ====
section
/-! PROOFS. OVERHEAD as a whole command: it answers at once, and its RESULT is the fixed one-byte overhead (43_overhead_and_framing R114). -/

namespace Sys2Proof.Machine

/-- OVERHEAD is the shared completion and nothing before it: no check and no memory access. -/
theorem exec_overhead (s : State) : exec .overhead s = .next (complete overheadResult s) := rfl

theorem overheadResult_setWidth : overheadResult.setWidth 32 = 0x00000001#32 := by decide

/-- Settles O29: a completion writes RESULT, STATUS and the engine only, and RESULT is the overhead byte count, zero-extended. -/
theorem overheadAlwaysReportsOne : Obligations.OverheadAlwaysReportsOne := by
  unfold Obligations.OverheadAlwaysReportsOne
  intro s
  rw [exec_overhead, complete, overheadResult_setWidth, statusSuccess]

end Sys2Proof.Machine
end

