-- ==== Sys2Proof/Proofs/CausesOfFailure.lean ====
section
/-! PROOFS. The causes of failure (60_exceptions R126): how a CMD write can complete, and the STATUS and RESULT each way leaves. -/

namespace Sys2Proof.Machine

/-! ### RESULT of a command that succeeds -/

/-- RESULT of each command on success (60_exceptions R126, the row of CAUSE 0b00). -/
def commandResult : Instr → Word → Word
  | .encode, size => size + 1#32
  | .decode, size => size - 1#32
  | .overhead, _ => 0x00000001#32

/-- A command that passes its checks and ends does so with success and its own RESULT; only a DECODE that hangs does not end. -/
theorem commandBody_success {i : Instr} {s : State} (hrun : checkCommand i (capture s) s.platform = .run)
    (hidle : (commandBody i (capture s) s).engine = .idle) :
    (commandBody i (capture s) s).status = 0x00000001#32 ∧
      (commandBody i (capture s) s).result = commandResult i s.size := by
  obtain ⟨hsize, -⟩ := checkCommand_run.1 hrun
  cases i with
  | encode => exact ⟨rfl, encodeResult_setWidth ((sizeOk_encode _).1 hsize)⟩
  | decode =>
    obtain ⟨hlow, hhigh⟩ := (sizeOk_decode _).1 hsize
    rw [commandBody] at hidle ⊢
    obtain ⟨m, -, -, -, ⟨-, hbody⟩ | ⟨-, hbody⟩⟩ := decodeBody_cases (capture s) s <;> rw [hbody] at hidle ⊢
    · exact ⟨rfl, decodeResult_setWidth hlow hhigh⟩
    · cases hidle
  | overhead => exact ⟨rfl, overheadResult_setWidth⟩

/-! ### How a CMD write completes -/

/-- The ways a CMD write of `w` in state `s` can complete in `t`: with success, or with one of the two causes of
60_exceptions R126. -/
inductive WriteEnd (w : Word) (s t : State) : Prop
  | success (i : Instr) (hword : w = encodeCmd i) (hsize : checkCommand i (capture s) s.platform ≠ .badSize)
      (hstatus : t.status = 0x00000001#32) (hresult : t.result = commandResult i s.size)
  | sizeRange (i : Instr) (hword : w = encodeCmd i) (hsize : checkCommand i (capture s) s.platform = .badSize)
      (hstatus : t.status = 0x00000007#32)
  | illegalCmd (hword : ∀ i, w ≠ encodeCmd i) (hstatus : t.status = 0x0000000B#32)

theorem exec_writeEnd {i : Instr} {s t : State} (h : exec i s = .next t) (hidle : t.engine = .idle) :
    WriteEnd (encodeCmd i) s t := by
  cases hcheck : checkCommand i (capture s) s.platform with
  | badSize =>
    cases (exec_sizeRange hcheck).symm.trans h
    exact .sizeRange i rfl hcheck rfl
  | inadmissible =>
    cases (exec_inadmissible hcheck).symm.trans h
    cases hidle
  | run =>
    cases (exec_run hcheck).symm.trans h
    obtain ⟨hstatus, hresult⟩ := commandBody_success hcheck hidle
    exact .success i rfl (by simp [hcheck]) hstatus hresult

theorem commandWrite_writeEnd {w : Word} {s t : State} (h : commandWrite w s = .next t) (hidle : t.engine = .idle) :
    WriteEnd w s t := by
  cases hw : decodeCmd w with
  | ok i =>
    rw [commandWrite_ok hw] at h
    rw [eq_encodeCmd_of_decodeCmd hw]
    exact exec_writeEnd h hidle
  | error e =>
    cases (commandWrite_error hw s).symm.trans h
    refine .illegalCmd ?_ statusError_illegalCmd
    rintro i rfl
    cases hw.symm.trans (decodeCmd_encodeCmd i)

/-! ### The conditions of R126, as it writes them -/

theorem encodeCmd_inj {i j : Instr} (h : encodeCmd i = encodeCmd j) : i = j :=
  Except.ok.inj ((decodeCmd_encodeCmd i).symm.trans ((congrArg decodeCmd h).trans (decodeCmd_encodeCmd j)))

/-- The word is a command's whose size check fails: ENCODE above 254 or DECODE outside 1 to 255, never OVERHEAD. -/
theorem badSize_word_iff (w : Word) (s : State) :
    (∃ i, w = encodeCmd i ∧ checkCommand i (capture s) s.platform = .badSize) ↔
      (w = 0x00000001#32 ∧ 254 < s.size.toNat) ∨ (w = 0x00000002#32 ∧ (s.size.toNat < 1 ∨ 255 < s.size.toNat)) := by
  rw [← checkCommand_encode_badSize, ← checkCommand_decode_badSize]
  constructor
  · rintro ⟨i, hw, hbad⟩
    cases i with
    | encode => exact .inl ⟨hw, hbad⟩
    | decode => exact .inr ⟨hw, hbad⟩
    | overhead => cases checkCommand_badSize.1 hbad
  · rintro (⟨hw, hbad⟩ | ⟨hw, hbad⟩)
    · exact ⟨.encode, hw, hbad⟩
    · exact ⟨.decode, hw, hbad⟩

/-- The word is no command's exactly when its fields are illegal (30_encoding R62). -/
theorem no_command_word_iff (w : Word) :
    (∀ i, w ≠ encodeCmd i) ↔ w.extractLsb' 2 30 ≠ 0#30 ∨ w.extractLsb' 0 2 = 0b00#2 := by
  refine Iff.trans ⟨fun h => ⟨h .encode, h .decode, h .overhead⟩, fun ⟨he, hd, ho⟩ i => ?_⟩ (illegalFields_iff w).symm
  cases i with
  | encode => exact he
  | decode => exact hd
  | overhead => exact ho

/-! ### What each end leaves in STATUS and RESULT -/

namespace WriteEnd
variable {w : Word} {s t : State} (h : WriteEnd w s t)
include h

/-- One of the STATUS words of R126, whose CAUSE is never 0b11 and whose ERR is 0 on success only. -/
theorem status_fields :
    (t.status = 0x00000001#32 ∨ t.status = 0x00000007#32 ∨ t.status = 0x0000000B#32) ∧
      statusCause t.status ≠ 0b11#2 ∧ (statusErr t.status = false ↔ t.status = 0x00000001#32) := by
  cases h with
  | success i _ _ hstatus _ => rw [hstatus]; decide
  | sizeRange i _ _ hstatus => rw [hstatus]; decide
  | illegalCmd _ hstatus => rw [hstatus]; decide

theorem status_sizeRange_iff :
    t.status = 0x00000007#32 ↔ ∃ i, w = encodeCmd i ∧ checkCommand i (capture s) s.platform = .badSize := by
  cases h with
  | success i hword hsize hstatus _ =>
    refine iff_of_false (by rw [hstatus]; decide) ?_
    rintro ⟨j, hj, hbad⟩
    cases encodeCmd_inj (hword.symm.trans hj)
    exact hsize hbad
  | sizeRange i hword hsize hstatus => exact iff_of_true hstatus ⟨i, hword, hsize⟩
  | illegalCmd hword hstatus =>
    refine iff_of_false (by rw [hstatus]; decide) ?_
    rintro ⟨j, hj, -⟩
    exact hword j hj

theorem status_illegalCmd_iff : t.status = 0x0000000B#32 ↔ ∀ i, w ≠ encodeCmd i := by
  cases h with
  | success i hword _ hstatus _ => exact iff_of_false (by rw [hstatus]; decide) fun hno => hno i hword
  | sizeRange i hword _ hstatus => exact iff_of_false (by rw [hstatus]; decide) fun hno => hno i hword
  | illegalCmd hword hstatus => exact iff_of_true hstatus hword

theorem result_of_success (hsuccess : t.status = 0x00000001#32) {i : Instr} (hi : w = encodeCmd i) :
    t.result = commandResult i s.size := by
  cases h with
  | success j hword _ _ hresult =>
    cases encodeCmd_inj (hword.symm.trans hi)
    exact hresult
  | sizeRange _ _ _ hstatus => cases hstatus.symm.trans hsuccess
  | illegalCmd _ hstatus => cases hstatus.symm.trans hsuccess

end WriteEnd

/-! ### The failing size check as a step -/

/-- The CMD write of a command whose size check fails writes RESULT and STATUS only, admitted region or not. -/
theorem step_sizeRange {s : State} {rest : List Event} {i : Instr} (hidle : s.engine = .idle)
    (he : s.events = .host (.regWrite .word 0x00#32 (encodeCmd i)) :: rest)
    (hbad : checkCommand i (capture s) s.platform = .badSize) :
    step s = .next { s with events := rest, result := 0x00000000#32, status := 0x00000007#32 } := by
  calc step s
    _ = exec i { s with events := rest } := stepRunsTheDecodedCommand s _ rest i hidle he (decodeCmd_encodeCmd i)
    _ = .next { s with events := rest, result := 0x00000000#32, status := 0x00000007#32, engine := .idle } :=
      exec_sizeRange (s := { s with events := rest }) hbad
    _ = .next { s with events := rest, result := 0x00000000#32, status := 0x00000007#32 } := by rw [← hidle]

/-- Settles O7: each failing check as one whole next state, and the three ways a CMD write completes. -/
theorem causesOfFailureAndTheirPriority : Obligations.CausesOfFailureAndTheirPriority := by
  unfold Obligations.CausesOfFailureAndTheirPriority
  intro s w rest hidle he
  obtain ⟨-, hillegal⟩ := illegalWordCompletesAsIllegalCmd s w rest hidle he
  refine ⟨hillegal, ?encode, ?decode, fun t ht htidle => ?completed⟩
  case encode =>
    rintro rfl hbad
    exact step_sizeRange (i := .encode) hidle he ((checkCommand_encode_badSize s).2 hbad)
  case decode =>
    rintro rfl hbad
    exact step_sizeRange (i := .decode) hidle he ((checkCommand_decode_badSize s).2 hbad)
  case completed =>
    have hend : WriteEnd w { s with events := rest } t :=
      commandWrite_writeEnd ((step_commandWrite hidle he).symm.trans ht) htidle
    obtain ⟨hwords, hcause, herr⟩ := hend.status_fields
    exact ⟨hwords, hend.status_sizeRange_iff.trans (badSize_word_iff w _),
      hend.status_illegalCmd_iff.trans (no_command_word_iff w),
      fun hsuccess => ⟨hend.result_of_success hsuccess (i := .encode), hend.result_of_success hsuccess (i := .decode),
        hend.result_of_success hsuccess (i := .overhead)⟩,
      hcause, herr⟩

end Sys2Proof.Machine
end

