-- ==== Sys2Proof/Proofs/Reset.lean ====
section
/-! PROOFS. A reset (70_reset_and_hazards R138 to R141): the registers and the engine in one form for every engine state, and memory by what the engine was doing. -/

namespace Sys2Proof.Machine

/-! ### Memory under a reset, by the engine state -/

/-- No command in progress: memory stays (70_reset_and_hazards R139). -/
theorem resetMemory_of_idle {s : State} (h : s.engine = .idle) : resetMemory s = s := by
  simp [resetMemory, h]

/-- A command without an end has no byte left to write: memory stays (70_reset_and_hazards R140). -/
theorem resetMemory_of_neverCompletes {s : State} (h : s.NeverCompletes) : resetMemory s = s := by
  rcases h with ⟨i, ops, h⟩ | ⟨ops, h⟩ <;> simp [resetMemory, h]

/-- OVERHEAD and a failing command have no region: memory stays (70_reset_and_hazards R141). -/
theorem resetMemory_of_noRegion {s : State} {wk : Work} (h : s.engine = .busy wk)
    (hwk : wk = .overhead ∨ ∃ c, wk = .failing c) : resetMemory s = s := by
  rcases hwk with rfl | ⟨c, rfl⟩ <;> simp [resetMemory, h]

theorem resetMemory_of_encode {s : State} {ops : Operands} {race : Race} {phase : EncodePhase}
    (h : s.engine = .busy (.encode ops race phase)) : resetMemory s = redrawRegion (encodeRegion ops) s := by
  simp [resetMemory, h]

theorem resetMemory_of_decode {s : State} {ops : Operands} {race : Race} {phase : DecodePhase}
    (h : s.engine = .busy (.decode ops race phase)) : resetMemory s = redrawRegion (decodeRegion ops) s := by
  simp [resetMemory, h]

/-! ### The reset as a step -/

/-- A reset waits for nothing: it is taken whatever the engine does. -/
theorem step_reset {s : State} {rest : List Event} (he : s.events = .reset :: rest) :
    step s = .next (resetBlock { s with events := rest }) := by
  rw [step, he]
  rfl

/-- A reset that leaves memory alone sets the registers to 0 and the engine to IDLE, and changes nothing else (70_reset_and_hazards
R138). -/
theorem step_reset_of_resetMemory_eq {s : State} {rest : List Event} (he : s.events = .reset :: rest)
    (hmem : resetMemory { s with events := rest } = { s with events := rest }) :
    step s = .next { s with
      events := rest, addr := 0#32, offset := 0#32, size := 0#32, result := 0#32, status := 0x00000000#32, engine := .idle } := by
  rw [step_reset he, resetBlock, hmem]

/-- Settles O44: with an IDLE engine the reset leaves memory alone. -/
theorem resetFromIdle : Obligations.ResetFromIdle := by
  unfold Obligations.ResetFromIdle
  intro s rest he hidle
  exact step_reset_of_resetMemory_eq he (resetMemory_of_idle (s := { s with events := rest }) hidle)

/-- Settles O43: with a stuck or HUNG engine the reset leaves memory alone. -/
theorem resetEndsStuckAndHungCommands : Obligations.ResetEndsStuckAndHungCommands := by
  unfold Obligations.ResetEndsStuckAndHungCommands
  intro s rest he hnever
  exact step_reset_of_resetMemory_eq he (resetMemory_of_neverCompletes (s := { s with events := rest }) hnever)

/-! ### A reset while a command is BUSY -/

/-- Settles O45: registers and engine by the fields of `resetBlock`; in memory, an ENCODE or DECODE has its region redrawn, one draw per
byte, and any other command that can still end has no region. -/
theorem resetDuringACommand : Obligations.ResetDuringACommand := by
  unfold Obligations.ResetDuringACommand
  intro s rest wk he hbusy
  refine ⟨_, step_reset he, rfl, rfl, rfl, rfl, rfl, rfl, by simp, by simp, by simp, by simp, ?encode, ?decode, ?noRegion⟩
  case encode =>
    rintro ops race phase rfl
    rw [resetBlock_mem, resetMemory_of_encode (s := { s with events := rest }) hbusy]
    exact drawBytes_region (commandRegion_len_le .encode ops) s.draws s.mem
  case decode =>
    rintro ops race phase rfl
    rw [resetBlock_mem, resetMemory_of_decode (s := { s with events := rest }) hbusy]
    exact drawBytes_region (commandRegion_len_le .decode ops) s.draws s.mem
  case noRegion =>
    intro hwk
    rw [resetBlock_mem, resetMemory_of_noRegion (s := { s with events := rest }) hbusy hwk]

end Sys2Proof.Machine
end

