-- ==== Sys2Proof/Proofs/TableWords.lean ====
section
/-! PROOFS. The words of spec/opcode_table.json: the command the table decoder reads is the one a CMD write of the word runs (30_encoding sections 1 and 4). -/

namespace Sys2Proof

/-- The table decoder reads a command only where the decoder of command words reads it from the 32-bit bus word (30_encoding R63). -/
theorem decodeCmd_of_decodeTableWord {nbits w : Nat} {i : Instr} (h : decodeTableWord nbits w = some i) :
    decodeCmd (BitVec.ofNat 32 (w % 2 ^ nbits)) = .ok i := by
  unfold decodeTableWord at h
  split at h
  case isTrue =>
    split at h
    next j hj => cases h; exact hj
    next => cases h
  case isFalse => cases h

end Sys2Proof

namespace Sys2Proof.Machine

/-- Settles O5, from O4: `withFetchWord` makes the engine IDLE and the table word the next CMD write. -/
theorem fetchWordRunsTheTableCommand : Obligations.FetchWordRunsTheTableCommand := by
  unfold Obligations.FetchWordRunsTheTableCommand
  intro s nbits w i h
  exact stepRunsTheDecodedCommand (s.withFetchWord nbits w) _ s.events i rfl rfl (decodeCmd_of_decodeTableWord h)

end Sys2Proof.Machine
end
